-- ==== Sys2Proof/Word.lean ====
section
/-! DEFINITION. The word types of the block and the pixel (spec/00_scope.md R8, spec/10_state.md R21). -/

namespace Sys2Proof

/-- A byte: an 8-bit unsigned value; bit 7 is the most significant (R8, R56). -/
abbrev Byte := BitVec 8

/-- A command word of the host: OP in bits 65:64, payload in 63:0 (R70). -/
abbrev CommandWord := BitVec 66

/-- A slot number of the pixel cache, 0 to 63: the value of the hash (R22, R110). -/
abbrev Slot := BitVec 6

/-- A pixel: four unsigned channels, a value with no identity (R21). -/
structure Pixel where
  r : Byte
  g : Byte
  b : Byte
  a : Byte
  deriving DecidableEq, Repr, Inhabited

/-- The 32-bit word of a pixel: r in 31:24, g in 23:16, b in 15:8, a in 7:0 (R21). -/
def Pixel.toWord (p : Pixel) : BitVec 32 := p.r ++ p.g ++ p.b ++ p.a

/-- Transparent black, the value every cache slot holds at the start of an encode (R6, R36). -/
def Pixel.transparent : Pixel := { r := 0, g := 0, b := 0, a := 0 }

/-- Opaque black, the value `prev` holds at the start of an encode (R6, R23). -/
def Pixel.opaqueBlack : Pixel := { r := 0, g := 0, b := 0, a := 255 }

/-- What is decoded: a command word the host sends (R70), or the bytes of one record of the output
stream: a chunk, the header or the end marker (R75 to R83). -/
inductive Code where
  | command (word : CommandWord)
  | record (bytes : List Byte)
  deriving DecidableEq, Repr

end Sys2Proof
end

