-- ==== Sys2Proof/Machine/Operands.lean ====
section
/-! DEFINITION. The pure functions of the classifier: hash, deltas (spec/41_classifier.md R110 to R112), and
the recovery of a pixel from the fields of DIFF and LUMA (spec/30_encoding.md R85). -/

namespace Sys2Proof.Machine

/-- hash(p) = (3r + 5g + 7b + 11a) mod 64, on the channels as naturals (R110). -/
def pixelHash (p : Pixel) : Slot :=
  BitVec.ofNat 6 (p.r.toNat * 3 + p.g.toNat * 5 + p.b.toNat * 7 + p.a.toNat * 11)

/-- A channel's delta with a bias, reduced mod 256. The subtraction wraps in 8 bits, which is the
mathematical modulus of R9 (log 16). -/
def biasedDelta (x y bias : Byte) : Byte := x - y + bias

/-- The DIFF fields (dr, dg, db) of a pixel against `prev`, each reduced mod 256 (R112). -/
structure DiffFields where
  dr : Byte
  dg : Byte
  db : Byte
  deriving DecidableEq, Repr

/-- The LUMA fields (lg, lrg, lbg) of a pixel against `prev`, each reduced mod 256 (R112). -/
structure LumaFields where
  lg : Byte
  lrg : Byte
  lbg : Byte
  deriving DecidableEq, Repr

/-- DiffFields(P, Q) (R112). -/
def diffFields (p q : Pixel) : DiffFields where
  dr := biasedDelta p.r q.r 2
  dg := biasedDelta p.g q.g 2
  db := biasedDelta p.b q.b 2

/-- DiffFits(P, Q): all three fields are at most 3 (R112). -/
def diffFits (p q : Pixel) : Bool :=
  decide ((diffFields p q).dr.toNat ≤ 3 ∧ (diffFields p q).dg.toNat ≤ 3 ∧
    (diffFields p q).db.toNat ≤ 3)

/-- LumaFields(P, Q): green biased by 32; red and blue, each less green, biased by 8 (R112). -/
def lumaFields (p q : Pixel) : LumaFields where
  lg := biasedDelta p.g q.g 32
  lrg := biasedDelta (p.r - q.r) (p.g - q.g) 8
  lbg := biasedDelta (p.b - q.b) (p.g - q.g) 8

/-- LumaFits(P, Q): green at most 63, the other two at most 15 (R112). -/
def lumaFits (p q : Pixel) : Bool :=
  decide ((lumaFields p q).lg.toNat ≤ 63 ∧ (lumaFields p q).lrg.toNat ≤ 15 ∧
    (lumaFields p q).lbg.toNat ≤ 15)

/-- The channel a 2-bit DIFF field names: (prev.c + field - 2) mod 256 (R85). -/
def recoverDiffChannel (q : Byte) (field : BitVec 2) : Byte := q + field.setWidth 8 - 2

/-- The pixel a DIFF names against `prev`; alpha is carried unchanged (R85). -/
def recoverDiff (q : Pixel) (dr dg db : BitVec 2) : Pixel where
  r := recoverDiffChannel q.r dr
  g := recoverDiffChannel q.g dg
  b := recoverDiffChannel q.b db
  a := q.a

/-- The pixel a LUMA names against `prev`: vg = dg - 32, vr = vg + drdg - 8, vb = vg + dbdg - 8; alpha is
carried unchanged (R85). -/
def recoverLuma (q : Pixel) (dg : BitVec 6) (drdg dbdg : BitVec 4) : Pixel :=
  let vg : Byte := dg.setWidth 8 - 32
  { r := q.r + (vg + drdg.setWidth 8 - 8)
    g := q.g + vg
    b := q.b + (vg + dbdg.setWidth 8 - 8)
    a := q.a }

/-- The pixel an RGB names: its three bytes, and alpha carried from `prev` (R82, R135). -/
def recoverRgb (q : Pixel) (r g b : Byte) : Pixel := { r := r, g := g, b := b, a := q.a }

end Sys2Proof.Machine
end

