-- ==== Sys2Proof/Config.lean ====
section
/-! DEFINITION. What is fixed for the machine (spec/00_scope.md R6, R7) and the free values of what the
spec leaves open. A free value is an opaque constant with no body: nothing about it can be proved. -/

namespace Sys2Proof

/-- The sink's answer to one append (R52): every byte accepted, or the first `k` bytes accepted and
then a failure. A `k` beyond the bytes offered means all of them (log 13). -/
inductive SinkAnswer where
  | accept
  | fail (k : Nat)
  deriving DecidableEq, Repr, Inhabited

namespace Config

/-- DIM_MAX, the largest width or height START accepts: a named parameter, 2^32 - 1 in this spec
(R7, D6). Log 12. -/
def dimMax : Nat := 2 ^ 32 - 1

/-- RUN_MAX, the longest run one RUN chunk encodes (R6). -/
def runMax : BitVec 6 := 62

/-- CHANNELS, header byte 12 (R6). -/
def channels : Byte := 4

/-- COLORSPACE, header byte 13 (R6). -/
def colorspace : Byte := 0

/-- SinkAnswer, the OPEN draw of R7: what the sink does at its `n`-th turn of the run, where the state
scripts nothing; `none` is no answer yet (R53). DESIGN CHOICE (log 3): free. -/
opaque sinkAnswer (n : Nat) : Option SinkAnswer

/-- The cache left unspecified by the `n`-th fault or reset (R36, R37). DESIGN CHOICE (log 5, 6): free. -/
opaque freeCache (n : Nat) : Vector Pixel 64

/-- `prev` left unspecified (R36, R37). DESIGN CHOICE (log 5, 6): free. -/
opaque freePrev (n : Nat) : Pixel

/-- `run` left unspecified (R36, R37). DESIGN CHOICE (log 5, 6): free. -/
opaque freeRun (n : Nat) : BitVec 6

/-- `count` left unspecified (R36, R37). DESIGN CHOICE (log 5, 6): free. -/
opaque freeCount (n : Nat) : BitVec 64

/-- `width` left unspecified by hardware reset (R36). DESIGN CHOICE (log 6): free. -/
opaque freeWidth (n : Nat) : BitVec 32

/-- `height` left unspecified by hardware reset (R36). DESIGN CHOICE (log 6): free. -/
opaque freeHeight (n : Nat) : BitVec 32

end Config
end Sys2Proof
end

