-- ==== Sys2Proof/Syntax.lean ====
section
/-! DEFINITION. The instructions: one constructor per row of spec/opcode_table.json. -/

namespace Sys2Proof

/-- The rows of the opcode table. The first three are the command words of the host (R70 to R73); the
others are the records the binary packer emits, whose operands are the fields of their bytes (R75 to
R83). -/
inductive Instr where
  /-- START W, H (R70, R71, R100). -/
  | start (w h : BitVec 32)
  /-- PIXEL r, g, b, a (R70, R72, R113). -/
  | pixel (r g b a : Byte)
  /-- A reserved command word, kept whole (R73). -/
  | reserved (word : CommandWord)
  /-- INDEX i (R78, R131). -/
  | index (i : Slot)
  /-- DIFF: the three biased 2-bit fields (R79, R133). -/
  | diff (dr dg db : BitVec 2)
  /-- LUMA: the biased fields dg, drdg and dbdg (R80, R134). -/
  | luma (dg : BitVec 6) (drdg dbdg : BitVec 4)
  /-- RUN: the 6-bit field, the run's length less one (R81, R130). -/
  | run (lessOne : BitVec 6)
  /-- RGB r, g, b (R82, R135). -/
  | rgb (r g b : Byte)
  /-- RGBA r, g, b, a (R83, R132). -/
  | rgba (r g b a : Byte)
  /-- HEADER W, H (R75, R101). -/
  | header (w h : BitVec 32)
  /-- END (R76, R140). -/
  | endMarker
  deriving DecidableEq, Repr

end Sys2Proof
end

