-- ==== Sys2Proof/WellFormed.lean ====
section
/-! DEFINITION. Which terms of `Instr` have an encoding (spec/30_encoding.md R73, R81). -/

namespace Sys2Proof

/-- OP, bits 65:64 of a command word (R70). -/
def CommandWord.op (word : CommandWord) : BitVec 2 := word.extractLsb' 64 2

/-- A command word is reserved when its OP is 00 or 11, or when its OP is 10 and its bits 63:32 are not
all 0 (R73). -/
def CommandWord.isReserved (word : CommandWord) : Bool :=
  CommandWord.op word == 0b00 || CommandWord.op word == 0b11 ||
    (CommandWord.op word == 0b10 && word.extractLsb' 32 32 != 0)

/-- A RESERVED holds a reserved word (R73), and a RUN field is 0 to 61: 62 and 63 are the RGB and RGBA
tags (R77, R81). Every other term has an encoding as it stands. -/
def Instr.wellFormed : Instr → Bool
  | .start _ _ => true
  | .pixel _ _ _ _ => true
  | .reserved word => CommandWord.isReserved word
  | .index _ => true
  | .diff _ _ _ => true
  | .luma _ _ _ => true
  | .run lessOne => decide (lessOne.toNat < 62)
  | .rgb _ _ _ => true
  | .rgba _ _ _ _ => true
  | .header _ _ => true
  | .endMarker => true

/-- The instruction has an encoding. -/
abbrev WellFormed (i : Instr) : Prop := i.wellFormed = true

end Sys2Proof
end

