-- ==== Sys2Proof/Decode.lean ====
section
/-! DEFINITION. The byte formats of the output records (spec/30_encoding.md R75 to R83), the decoder of
command words and records, the encoder, the cutting of a chunk stream (R84), and the words of
spec/opcode_table.json. The block itself decodes only command words (R84: "the block itself decodes
nothing" of the stream). -/

namespace Sys2Proof

/-- The four bytes of a 32-bit value, most significant first (R11, R54). -/
def be32 (v : BitVec 32) : List Byte :=
  [v.extractLsb' 24 8, v.extractLsb' 16 8, v.extractLsb' 8 8, v.extractLsb' 0 8]

/-- The 14 bytes of the header: magic, width, height, channels, colorspace (R75). -/
def headerBytes (w h : BitVec 32) : List Byte :=
  [0x71, 0x6F, 0x69, 0x66] ++ be32 w ++ be32 h ++ [Config.channels, Config.colorspace]

/-- The 8 bytes of the end marker (R76). -/
def endMarkerBytes : List Byte := [0, 0, 0, 0, 0, 0, 0, 1]

/-- INDEX: tag 00, then the slot (R78). -/
def indexBytes (i : Slot) : List Byte := [0b00#2 ++ i]

/-- DIFF: tag 01, then dr, dg, db in descending bit order (R79). -/
def diffBytes (dr dg db : BitVec 2) : List Byte := [0b01#2 ++ dr ++ dg ++ db]

/-- LUMA: tag 10 and dg, then drdg and dbdg (R80). -/
def lumaBytes (dg : BitVec 6) (drdg dbdg : BitVec 4) : List Byte := [0b10#2 ++ dg, drdg ++ dbdg]

/-- RUN: tag 11, then the length less one (R81). -/
def runBytes (lessOne : BitVec 6) : List Byte := [0b11#2 ++ lessOne]

/-- RGB: the tag byte FE, then r, g, b (R82). -/
def rgbBytes (r g b : Byte) : List Byte := [0xFE, r, g, b]

/-- RGBA: the tag byte FF, then r, g, b, a (R83). -/
def rgbaBytes (r g b a : Byte) : List Byte := [0xFF, r, g, b, a]

/-- The command word OP, then the payload (R70). -/
def commandWord (op : BitVec 2) (payload : BitVec 64) : CommandWord := op ++ payload

/-- The encoder: the word of a command, the bytes of a record (R70 to R83). -/
def encode : Instr → Code
  | .start w h => .command (commandWord 0b01 (w ++ h))
  | .pixel r g b a => .command (commandWord 0b10 (0#32 ++ r ++ g ++ b ++ a))
  | .reserved word => .command word
  | .index i => .record (indexBytes i)
  | .diff dr dg db => .record (diffBytes dr dg db)
  | .luma dg drdg dbdg => .record (lumaBytes dg drdg dbdg)
  | .run lessOne => .record (runBytes lessOne)
  | .rgb r g b => .record (rgbBytes r g b)
  | .rgba r g b a => .record (rgbaBytes r g b a)
  | .header w h => .record (headerBytes w h)
  | .endMarker => .record endMarkerBytes

/-- Why bytes are no record of the output stream. -/
inductive DecodeError where
  /-- No byte at all. -/
  | emptyRecord
  /-- The first byte's kind has another length than these `n` bytes (R77). -/
  | wrongLength (b0 : Byte) (n : Nat)
  /-- Fourteen bytes that are not a header of R75. -/
  | notHeader
  /-- Eight bytes that are not the end marker of R76. -/
  | notEndMarker
  deriving DecidableEq, Repr

/-- A command word is START, PIXEL or reserved: every word is one of the three (R70 to R73). -/
def decodeCommand (word : CommandWord) : Instr :=
  if CommandWord.isReserved word then .reserved word
  else if CommandWord.op word = 0b01 then .start (word.extractLsb' 32 32) (word.extractLsb' 0 32)
  else .pixel (word.extractLsb' 24 8) (word.extractLsb' 16 8) (word.extractLsb' 8 8)
    (word.extractLsb' 0 8)

/-- The length of a chunk follows from its first byte alone (R77, R84). -/
def chunkLength (b0 : Byte) : Nat :=
  if b0 = 0xFF then 5
  else if b0 = 0xFE then 4
  else if b0.extractLsb' 6 2 = 0b10 then 2
  else 1

/-- A chunk: the full-byte tags FE and FF are tested first, then bits 7:6 (R77). -/
def decodeChunk (b0 : Byte) (rest : List Byte) : Except DecodeError Instr :=
  let bad := Except.error (DecodeError.wrongLength b0 (rest.length + 1))
  if b0 = 0xFF then
    match rest with
    | [r, g, b, a] => .ok (.rgba r g b a)
    | _ => bad
  else if b0 = 0xFE then
    match rest with
    | [r, g, b] => .ok (.rgb r g b)
    | _ => bad
  else if b0.extractLsb' 6 2 = 0b10 then
    match rest with
    | [b1] => .ok (.luma (b0.extractLsb' 0 6) (b1.extractLsb' 4 4) (b1.extractLsb' 0 4))
    | _ => bad
  else
    match rest with
    | [] =>
      if b0.extractLsb' 6 2 = 0b00 then .ok (.index (b0.extractLsb' 0 6))
      else if b0.extractLsb' 6 2 = 0b01 then
        .ok (.diff (b0.extractLsb' 4 2) (b0.extractLsb' 2 2) (b0.extractLsb' 0 2))
      else .ok (.run (b0.extractLsb' 0 6))
    | _ => bad

/-- The fourteen bytes of a header (R75): the fixed bytes are checked, the two sizes read big-endian. -/
def decodeHeader (bs : List Byte) : Except DecodeError Instr :=
  match bs with
  | [m0, m1, m2, m3, w3, w2, w1, w0, h3, h2, h1, h0, ch, cs] =>
    if [m0, m1, m2, m3, ch, cs] = [0x71, 0x6F, 0x69, 0x66, Config.channels, Config.colorspace] then
      .ok (.header (w3 ++ w2 ++ w1 ++ w0) (h3 ++ h2 ++ h1 ++ h0))
    else .error .notHeader
  | _ => .error .notHeader

/-- The bytes of ONE record. The header and the end marker have no tag: they are known by position
(R84), which a whole record shows by its length, since a chunk has 1, 2, 4 or 5 bytes (R77). -/
def decodeRecord (bs : List Byte) : Except DecodeError Instr :=
  if bs.length = 14 then decodeHeader bs
  else if bs.length = 8 then
    if bs = endMarkerBytes then .ok .endMarker else .error .notEndMarker
  else
    match bs with
    | [] => .error .emptyRecord
    | b0 :: rest => decodeChunk b0 rest

/-- The decoder, total: every command word is an instruction, and bytes that are no record are refused
by name. -/
def decode : Code → Except DecodeError Instr
  | .command word => .ok (decodeCommand word)
  | .record bs => decodeRecord bs

/-- `fuel` bounds the number of chunks; see `cutChunks`. -/
def cutChunksFuel : Nat → List Byte → Option (List Instr)
  | _, [] => some []
  | 0, _ => none
  | fuel + 1, b0 :: rest =>
    match decodeChunk b0 (rest.take (chunkLength b0 - 1)) with
    | .ok i => (cutChunksFuel fuel (rest.drop (chunkLength b0 - 1))).map (i :: ·)
    | .error _ => none

/-- A chunk stream cut into its chunks with no state, by each first byte's length; `none` if the bytes
are not a whole number of chunks (R84). -/
def cutChunks (bs : List Byte) : Option (List Instr) := cutChunksFuel bs.length bs

/-- The `n` lowest bytes of `w`, the least significant first. -/
def leBytes : Nat → Nat → List Byte
  | 0, _ => []
  | n + 1, w => BitVec.ofNat 8 w :: leBytes n (w / 256)

/-- The code of `nbits` bits `w` as spec/opcode_table.json numbers them (log 11): a command row is one
66-bit word; the bytes of a record count up from bit 0, and bytes the table gives no bits are 0; END's
row reads its eight bytes as one number, 1. -/
def tableWordCode (nbits w : Nat) : Code :=
  if 64 < nbits ∧ nbits ≤ 72 ∧ w < 2 ^ 66 then .command (BitVec.ofNat 66 w)
  else if (nbits = 16 ∨ nbits = 64) ∧ w = 1 then .record endMarkerBytes
  else .record (leBytes (max (chunkLength (BitVec.ofNat 8 w)) ((nbits + 7) / 8)) (w % 2 ^ nbits))

/-- The instruction the decoder reads from such a word. -/
def decodeTableWord (nbits w : Nat) : Option Instr :=
  match decode (tableWordCode nbits w) with
  | .ok i => some i
  | .error _ => none

end Sys2Proof
end

