-- ==== Sys2Proof/Machine/State.lean ====
section
/-! DEFINITION. The state of the machine as plain data: the block's architectural state (spec/10_state.md
R20), the sink's bytes (R51), and the model's own fields that hold the inputs to a step (log 1 to 5, 14). -/

namespace Sys2Proof.Machine

/-- The block's control state (R28). -/
inductive Fsm where
  | idle
  | active
  | done
  | error
  deriving DecidableEq, Repr

/-- Why the block is in ERROR (R29, R150). -/
inductive Cause where
  | none
  | invalidInput
  | sinkFailure
  | protocol
  deriving DecidableEq, Repr

/-- One interaction of the host with the block (R178); the sink's answers are the field `script`. -/
inductive Input where
  /-- The host sends a command word. A `Code.record` is no interaction of the host: it hands the bytes of
  one record straight to the binary packer, and only `withFetchWord` ever places one (log 8). -/
  | code (c : Code)
  /-- The host reads STATUS (R29, R178). -/
  | readStatus
  /-- The host asserts the reset signal (R170, R178). -/
  | hardwareReset
  deriving DecidableEq, Repr

/-- A step that waits for the sink (R53): the instruction it performs, and how many of its appends the sink
has accepted so far. The model's own (log 4). -/
structure Waiting where
  instr : Instr
  accepted : Nat
  deriving DecidableEq, Repr

/-- Why the machine stops: nothing stops it. The block's own faults are state changes (R155), and a step that
waits for the sink is a state the machine stays in (R53, log 4). So there is no constructor. -/
inductive Fault where
  deriving DecidableEq, Repr

/-- Why a step has no meaning. -/
inductive Refusal where
  /-- Raised by an arm of `exec` whose instruction has no meaning yet; no arm does. Safe. -/
  | notModelled (mnemonic : String)
  /-- Raised by `step` for a `Code.record` whose bytes are no record of spec/opcode_table.json, which no
  host can send (log 8). Safe. -/
  | badRecord (e : DecodeError)
  deriving DecidableEq, Repr

end Sys2Proof.Machine

namespace Sys2Proof.Machine

/-- Everything the machine holds. -/
structure State where
  /-- The pixel cache, slots 0 to 63 (R20, R22). -/
  cache : Vector Pixel 64
  /-- The previously processed pixel (R20, R23). -/
  prev : Pixel
  /-- The run-length counter (R20, R24). -/
  run : BitVec 6
  /-- Pixels consumed since the accepted START (R20, R26). -/
  count : BitVec 64
  /-- The image's width, latched by START (R20, R27). -/
  width : BitVec 32
  /-- The image's height, latched by START (R20, R27). -/
  height : BitVec 32
  /-- Where the block is in an encode (R20, R28). -/
  fsm : Fsm
  /-- Why the block is in ERROR (R20, R29). -/
  cause : Cause
  /-- OUT: the bytes the sink has accepted, the byte at offset `n` in place `n` (R51). The sink's. -/
  out : List Byte
  /-- The host's interactions still to come, the next one first. The model's own (log 2). -/
  input : List Input
  /-- The command under way, while its step waits for the sink (R53). The model's own (log 4). -/
  waiting : Option Waiting
  /-- What the sink does at its next turns, the next one first: its answer to the append it is offered, or
  `none`, no answer yet. Past the end of the list each turn is free. The model's own (log 3, 4). -/
  script : List (Option SinkAnswer)
  /-- How many turns the sink has had: the index of a free answer. The model's own (log 3). -/
  turns : Nat
  /-- How often registers were left unspecified: the index of the free values that stand for them. The
  model's own (log 5). -/
  draws : Nat
  /-- The STATUS values the host has got back, oldest first. The model's own (log 14). -/
  statusReads : List (BitVec 8)
  deriving DecidableEq, Repr

/-- The machine right after hardware reset: IDLE and NONE, so that STATUS reads 0x00 (R36, R170). The
spec leaves `cache`, `prev`, `run`, `count`, `width` and `height` unspecified: zero here, DESIGN CHOICE
(log 7). No interaction is pending, no step waits, and the sink holds no byte and no scripted answer (log 1
to 4). -/
def State.reset : State where
  cache := Vector.replicate 64 Pixel.transparent
  prev := Pixel.transparent
  run := 0
  count := 0
  width := 0
  height := 0
  fsm := .idle
  cause := .none
  out := []
  input := []
  waiting := none
  script := []
  turns := 0
  draws := 0
  statusReads := []

end Sys2Proof.Machine
end

