-- ==== Sys2Proof/Machine/Flags.lean ====
section
/-! DEFINITION. STATUS (spec/10_state.md R29) and the conditions a PIXEL step computes and never stores
(R30). The block has no other flags. -/

namespace Sys2Proof.Machine

/-- STATUS.FSM, bits 1:0 (R29). -/
def Fsm.statusBits : Fsm → BitVec 2
  | .idle => 0b00
  | .active => 0b01
  | .done => 0b10
  | .error => 0b11

/-- STATUS.CAUSE, bits 3:2 (R29, R150). -/
def Cause.statusBits : Cause → BitVec 2
  | .none => 0b00
  | .invalidInput => 0b01
  | .sinkFailure => 0b10
  | .protocol => 0b11

/-- STATUS, the only host-readable register; bits 7:4 read 0 (R29). -/
def State.status (s : State) : BitVec 8 := 0#4 ++ s.cause.statusBits ++ s.fsm.statusBits

/-- One pixel read from the cache (R22, R59). -/
def State.readCache (s : State) (i : Slot) : Pixel := s.cache[i.toNat]'i.isLt

/-- "A run is open": run > 0 (R30). -/
def State.runOpen (s : State) : Bool := decide (0 < s.run.toNat)

/-- "P equals prev" (R30, R111). -/
def State.samePixel (s : State) (p : Pixel) : Bool := decide (p = s.prev)

/-- "P equals cache[hash(P)]" (R30, R111). -/
def State.cacheHit (s : State) (p : Pixel) : Bool := decide (s.readCache (pixelHash p) = p)

/-- The end-of-image test count == width × height, computed exactly (R27, R118). Log 15. -/
def State.imageComplete (s : State) : Bool :=
  decide (s.count.toNat = s.width.toNat * s.height.toNat)

/-- START accepts W and H exactly when 1 ≤ W ≤ DIM_MAX and 1 ≤ H ≤ DIM_MAX (R102). -/
def dimensionsValid (w h : BitVec 32) : Bool :=
  decide (1 ≤ w.toNat ∧ w.toNat ≤ Config.dimMax ∧ 1 ≤ h.toNat ∧ h.toNat ≤ Config.dimMax)

end Sys2Proof.Machine
end

