-- ==== Sys2Proof/Machine/Ops.lean ====
section
/-! DEFINITION. The named operations over the state: the cache, the encoder registers, the append to the
sink (spec/20_memory.md R52), entering a fault (spec/60_exceptions.md R156) and leaving one (R159),
hardware reset (spec/70_reset_and_hazards.md R170), and the order of effects in one step (R12). -/

namespace Sys2Proof.Machine

/-- cache[i] <- p: a whole pixel; whatever was there is replaced (R22, R59). -/
def State.writeCache (s : State) (i : Slot) (p : Pixel) : State :=
  { s with cache := s.cache.set i.toNat p i.isLt }

/-- run <- n (R24). -/
def State.setRun (s : State) (n : BitVec 6) : State := { s with run := n }

/-- fsm <- f (R28). -/
def State.setFsm (s : State) (f : Fsm) : State := { s with fsm := f }

/-- cause <- NONE: START begins a new encode attempt (R100, R159). -/
def State.clearCause (s : State) : State := { s with cause := .none }

/-- prev <- p and count <- count + 1: the end of every PIXEL step in ACTIVE (R117, R118). -/
def State.advance (s : State) (p : Pixel) : State := { s with prev := p, count := s.count + 1 }

/-- The fresh encoder state of an accepted START (R36, R100). -/
def State.initEncode (s : State) (w h : BitVec 32) : State :=
  { s with
    cache := Vector.replicate 64 Pixel.transparent
    prev := Pixel.opaqueBlack
    run := 0
    count := 0
    width := w
    height := h }

/-- The host's next interaction is taken. -/
def State.takeInput (s : State) : State := { s with input := s.input.tail }

/-- STATUS goes back to the host; nothing else changes (R29, R59, R178). -/
def State.reportStatus (s : State) : State := { s with statusReads := s.statusReads ++ [s.status] }

/-- The byte of OUT at an offset: nothing where the sink has accepted none. The block itself never reads
OUT (R51); claims do. -/
def State.outByte (s : State) (offset : Nat) : Option Byte := s.out[offset]?

/-- OUT as (offset, byte) cells. -/
def State.outCells (s : State) : List Host.Cell := s.out.zipIdx.map fun (b, n) => (n, b)

/-- The canonical form of such cells: offset `n` in place `n`, so the offsets rise strictly with no hole
and nothing is listed past the last byte accepted (R51). -/
def Memory.wf (cells : List Host.Cell) : Bool :=
  decide (cells.map Prod.fst = List.range cells.length)

/-- The three misuses of the command interface (R153). -/
inductive ProtocolKind where
  | startWhileActive
  | pixelNotActive
  | reserved
  deriving DecidableEq, Repr

/-- What `raise` is given (R11, R151 to R153). Only its code is recorded (R156). -/
inductive FaultInfo where
  | invalidInput (w h : BitVec 32)
  | sinkFailure (k : Nat)
  | protocolError (kind : ProtocolKind)
  deriving DecidableEq, Repr

/-- code(F), what STATUS.CAUSE records (R150, R156). -/
def FaultInfo.code : FaultInfo → Cause
  | .invalidInput _ _ => .invalidInput
  | .sinkFailure _ => .sinkFailure
  | .protocolError _ => .protocol

/-- `raise F`: fsm <- ERROR, cause <- code(F); OUT, width and height are kept; cache, prev, run and count
become unspecified, which is a free value each (R37, R156; log 5). -/
def State.raise (s : State) (f : FaultInfo) : State :=
  { s with
    fsm := .error
    cause := f.code
    cache := Config.freeCache s.draws
    prev := Config.freePrev s.draws
    run := Config.freeRun s.draws
    count := Config.freeCount s.draws
    draws := s.draws + 1 }

/-- Hardware reset: fsm <- IDLE and cause <- NONE; every other element of the block's state is left
unspecified, a free value each; OUT is the sink's and is not touched (R36, R170; log 6). A step that waits
for the sink is given up (R28: from any state; log 21). -/
def State.hardwareReset (s : State) : State :=
  { s with
    fsm := .idle
    cause := .none
    cache := Config.freeCache s.draws
    prev := Config.freePrev s.draws
    run := Config.freeRun s.draws
    count := Config.freeCount s.draws
    width := Config.freeWidth s.draws
    height := Config.freeHeight s.draws
    draws := s.draws + 1
    waiting := none }

/-- How many appends of the command under way the sink has accepted before this step; 0 for a new command
(R53, log 4). -/
def State.granted (s : State) : Nat :=
  match s.waiting with
  | none => 0
  | some w => w.accepted

/-- An append the sink has accepted before is passed by. -/
def State.useGrant (s : State) : State :=
  { s with waiting := s.waiting.map fun w => { w with accepted := w.accepted - 1 } }

/-- The step is complete: no command is under way. -/
def State.settle (s : State) : State := { s with waiting := none }

/-- The sink has given no answer yet: the block shows its state from before the step, the sink keeps the bytes
it has accepted, and the command stays under way with the appends accepted so far (R53). `mid` is the step's
state at the append that waits; the turn without an answer is used up. -/
def State.suspend (s : State) (i : Instr) (mid : State) : State :=
  { s with
    out := mid.out
    script := mid.script.tail
    turns := mid.turns + 1
    waiting := some { instr := i, accepted := s.granted + (mid.turns - s.turns) } }

/-- A step under way: the state so far, whether it goes on (no fault raised), and whether the sink has
answered every append so far. -/
structure Progress where
  state : State
  live : Bool
  answered : Bool
  deriving DecidableEq, Repr

/-- The step goes on from `s`. -/
def Progress.goOn (s : State) : Progress := { state := s, live := true, answered := true }

/-- The step raises `f` and performs no further effect (R12, R156). -/
def Progress.raised (s : State) (f : FaultInfo) : Progress :=
  { state := s.raise f, live := false, answered := true }

/-- The sink has not answered: the step does not complete yet (R53). -/
def Progress.stuck (s : State) : Progress := { state := s, live := false, answered := false }

/-- The rest of the step, if it goes on (R12). -/
def Progress.andThen (p : Progress) (rest : State → Progress) : Progress :=
  if p.live then rest p.state else p

/-- A state write, if the step goes on (R12). -/
def Progress.andDo (p : Progress) (write : State → State) : Progress :=
  { p with state := if p.live then write p.state else p.state }

/-- The outcome of the step of `i` from `s`: complete, or waiting for the sink (R53; log 4). -/
def Progress.finish (p : Progress) (i : Instr) (s : State) : Host.Outcome State Fault Refusal :=
  .next (if p.answered then p.state.settle else s.suspend i p.state)

/-- What the sink does at its `k`-th turn from now, counting from 0: what is scripted, else the free draw;
`none` is no answer yet (R7, R52, R53; log 3). -/
def State.answerAt (s : State) (k : Nat) : Option SinkAnswer :=
  match s.script[k]? with
  | some ans => ans
  | none => Config.sinkAnswer (s.turns + k)

/-- One turn of the sink is used up. -/
def State.takeAnswer (s : State) : State :=
  { s with script := s.script.tail, turns := s.turns + 1 }

/-- OUT <- OUT ++ bs (R51, R52). -/
def State.append (s : State) (bs : List Byte) : State := { s with out := s.out ++ bs }

/-- Emit(bs): the sink is offered `bs` and gives one answer. Accept: all of `bs` is appended and the step
goes on. Fail(k): the first k bytes are appended and the step raises SinkFailure (R52, R152; log 13). No
answer yet: the step waits (R53). An append of a resumed step that the sink has accepted before is not offered
again. -/
def emit (bs : List Byte) (s : State) : Progress :=
  if 0 < s.granted then .goOn s.useGrant
  else
    match s.answerAt 0 with
    | some .accept => .goOn (s.takeAnswer.append bs)
    | some (.fail k) => .raised (s.takeAnswer.append (bs.take k)) (.sinkFailure k)
    | none => .stuck s

end Sys2Proof.Machine
end

