-- ==== Sys2Proof/Machine/Chunks.lean ====
section
/-! DEFINITION. The binary packer: one procedure per chunk kind (spec/42_chunks.md R130 to R135), and the
meaning of each chunk row as an instruction, which is that procedure on the chunk's own operands (log 8,
9). -/

namespace Sys2Proof.Machine

/-- EmitRun(n): one byte, then run <- 0 (R130). -/
def emitRun (n : BitVec 6) (s : State) : Progress :=
  (emit (runBytes (n - 1)) s).andDo fun t => t.setRun 0

/-- EmitIndex(i): one byte, no state write (R131). -/
def emitIndex (i : Slot) (s : State) : Progress := emit (indexBytes i) s

/-- EmitRGBA(P, i): five bytes, then cache[i] <- P (R132). -/
def emitRgba (p : Pixel) (i : Slot) (s : State) : Progress :=
  (emit (rgbaBytes p.r p.g p.b p.a) s).andDo fun t => t.writeCache i p

/-- EmitDiff(P, Q, i): one byte of the fields' low two bits, then cache[i] <- P (R133). -/
def emitDiff (p q : Pixel) (i : Slot) (s : State) : Progress :=
  let f := diffFields p q
  (emit (diffBytes (f.dr.setWidth 2) (f.dg.setWidth 2) (f.db.setWidth 2)) s).andDo fun t =>
    t.writeCache i p

/-- EmitLuma(P, Q, i): two bytes of the fields' low bits, then cache[i] <- P (R134). -/
def emitLuma (p q : Pixel) (i : Slot) (s : State) : Progress :=
  let f := lumaFields p q
  (emit (lumaBytes (f.lg.setWidth 6) (f.lrg.setWidth 4) (f.lbg.setWidth 4)) s).andDo fun t =>
    t.writeCache i p

/-- EmitRGB(P, i): four bytes, then cache[i] <- P (R135). -/
def emitRgb (p : Pixel) (i : Slot) (s : State) : Progress :=
  (emit (rgbBytes p.r p.g p.b) s).andDo fun t => t.writeCache i p

/-- INDEX i: EmitIndex(i) (R131). -/
def execIndex (i : Slot) (s : State) : Host.Outcome State Fault Refusal :=
  (emitIndex i s).finish (.index i) s

/-- DIFF: EmitDiff of the pixel its fields name against `prev` (R85, R133; log 9). -/
def execDiff (dr dg db : BitVec 2) (s : State) : Host.Outcome State Fault Refusal :=
  let p := recoverDiff s.prev dr dg db
  (emitDiff p s.prev (pixelHash p) s).finish (.diff dr dg db) s

/-- LUMA: EmitLuma of the pixel its fields name against `prev` (R85, R134; log 9). -/
def execLuma (dg : BitVec 6) (drdg dbdg : BitVec 4) (s : State) :
    Host.Outcome State Fault Refusal :=
  let p := recoverLuma s.prev dg drdg dbdg
  (emitLuma p s.prev (pixelHash p) s).finish (.luma dg drdg dbdg) s

/-- RUN: EmitRun of the length its field names, one more than the field (R81, R130). -/
def execRun (lessOne : BitVec 6) (s : State) : Host.Outcome State Fault Refusal :=
  (emitRun (lessOne + 1) s).finish (.run lessOne) s

/-- RGB: EmitRGB of the pixel with these channels and the alpha of `prev` (R82, R135; log 9). -/
def execRgb (r g b : Byte) (s : State) : Host.Outcome State Fault Refusal :=
  let p := recoverRgb s.prev r g b
  (emitRgb p (pixelHash p) s).finish (.rgb r g b) s

/-- RGBA: EmitRGBA of the pixel (R132). -/
def execRgba (r g b a : Byte) (s : State) : Host.Outcome State Fault Refusal :=
  let p : Pixel := { r := r, g := g, b := b, a := a }
  (emitRgba p (pixelHash p) s).finish (.rgba r g b a) s

end Sys2Proof.Machine
end

