-- ==== Sys2Proof/Machine/Records.lean ====
section
/-! DEFINITION. The fixed records: the header writer (spec/40_header.md R101) and the finalizer
(spec/43_finalizer.md R140), and their rows as instructions (log 8, 10). -/

namespace Sys2Proof.Machine

/-- The header writer: the 14 bytes as one append (R101). -/
def writeHeader (w h : BitVec 32) (s : State) : Progress := emit (headerBytes w h) s

/-- The flush of an open run: EmitRun(run) if run > 0 (R116, R140). -/
def flushRun (s : State) : Progress := if s.runOpen then emitRun s.run s else .goOn s

/-- Finalize(): flush the open run, emit the end marker, fsm <- DONE (R140). -/
def finalize (s : State) : Progress :=
  (flushRun s).andThen fun t => (emit endMarkerBytes t).andDo fun u => u.setFsm .done

/-- HEADER W, H: the header writer (R101). -/
def execHeader (w h : BitVec 32) (s : State) : Host.Outcome State Fault Refusal :=
  (writeHeader w h s).finish (.header w h) s

/-- END: the finalizer (R140; log 10). -/
def execEndMarker (s : State) : Host.Outcome State Fault Refusal :=
  (finalize s).finish .endMarker s

end Sys2Proof.Machine
end

