-- ==== Sys2Proof/Machine/Commands.lean ====
section
/-! DEFINITION. The commands of the host: START (spec/40_header.md R100), PIXEL (spec/41_classifier.md R113)
and the reserved words (spec/30_encoding.md R73). -/

namespace Sys2Proof.Machine

/-- START(W, H) once the protocol check has passed: cause <- NONE, the dimensions, the fresh encoder state,
the header, fsm <- ACTIVE (R100, R154). -/
def beginEncode (w h : BitVec 32) (s : State) : Progress :=
  if dimensionsValid w h then
    (writeHeader w h (s.clearCause.initEncode w h)).andDo fun t => t.setFsm .active
  else .raised s.clearCause (.invalidInput w h)

/-- START W, H: a PROTOCOL fault in ACTIVE, otherwise a new encode (R100, R153). -/
def execStart (w h : BitVec 32) (s : State) : Host.Outcome State Fault Refusal :=
  (if s.fsm = .active then Progress.raised s (.protocolError .startWhileActive)
   else beginEncode w h s).finish (.start w h) s

/-- Step 1, run continuation: run <- run + 1, cache[i] <- P, and RUN 62 at once at the cap (R115, D8). -/
def continueRun (p : Pixel) (i : Slot) (s : State) : Progress :=
  let t := (s.setRun (s.run + 1)).writeCache i p
  if t.run = Config.runMax then emitRun Config.runMax t else .goOn t

/-- Steps 3 to 7: the first chunk kind that applies, in the order INDEX, RGBA, DIFF, LUMA, RGB (R113,
R114). -/
def emitChunk (p : Pixel) (i : Slot) (s : State) : Progress :=
  if s.cacheHit p then emitIndex i s
  else if p.a ≠ s.prev.a then emitRgba p i s
  else if diffFits p s.prev then emitDiff p s.prev i s
  else if lumaFits p s.prev then emitLuma p s.prev i s
  else emitRgb p i s

/-- Steps 1 to 7 of the decision; step 2, the run flush, falls through to steps 3 to 7 (R113, R114, R116). -/
def classify (p : Pixel) (s : State) : Progress :=
  if s.samePixel p then continueRun p (pixelHash p) s
  else (flushRun s).andThen fun t => emitChunk p (pixelHash p) t

/-- The end of a PIXEL step: prev <- P, count <- count + 1, and the finalizer on the image's last pixel
(R117, R118). -/
def endPixel (p : Pixel) (s : State) : Progress :=
  if (s.advance p).imageComplete then finalize (s.advance p) else .goOn (s.advance p)

/-- PIXEL r, g, b, a: absorbed in ERROR (R158), a PROTOCOL fault outside ACTIVE (R153), otherwise the
decision and the end of the step (R113). -/
def execPixel (r g b a : Byte) (s : State) : Host.Outcome State Fault Refusal :=
  let p : Pixel := { r := r, g := g, b := b, a := a }
  (match s.fsm with
   | .error => Progress.goOn s
   | .active => (classify p s).andThen (endPixel p)
   | .idle | .done => Progress.raised s (.protocolError .pixelNotActive)).finish (.pixel r g b a) s

/-- A reserved command word: a PROTOCOL fault outside ERROR, no effect in ERROR, whatever the word (R73,
R153, R158). -/
def execReserved (word : CommandWord) (s : State) : Host.Outcome State Fault Refusal :=
  (if s.fsm = .error then Progress.goOn s
   else Progress.raised s (.protocolError .reserved)).finish (.reserved word) s

end Sys2Proof.Machine
end

