-- ==== Sys2Proof/Machine/Dispatch.lean ====
section
/-! DEFINITION. One arm per constructor of `Instr`. -/

namespace Sys2Proof.Machine

def exec (i : Instr) (s : State) : Host.Outcome State Fault Refusal :=
  match i with
  | .start w h => Sys2Proof.Machine.execStart w h s
  | .pixel r g b a => Sys2Proof.Machine.execPixel r g b a s
  | .reserved word => Sys2Proof.Machine.execReserved word s
  | .index slot => Sys2Proof.Machine.execIndex slot s
  | .diff dr dg db => Sys2Proof.Machine.execDiff dr dg db s
  | .luma dg drdg dbdg => Sys2Proof.Machine.execLuma dg drdg dbdg s
  | .run lessOne => Sys2Proof.Machine.execRun lessOne s
  | .rgb r g b => Sys2Proof.Machine.execRgb r g b s
  | .rgba r g b a => Sys2Proof.Machine.execRgba r g b a s
  | .header w h => Sys2Proof.Machine.execHeader w h s
  | .endMarker => Sys2Proof.Machine.execEndMarker s

end Sys2Proof.Machine
end

