-- ==== Sys2Proof/Machine/Interactions.lean ====
section
/-! DEFINITION. What the block does at each interaction of the host (spec/70_reset_and_hazards.md R178). -/

namespace Sys2Proof.Machine

/-- A code is decoded and its instruction executed; bytes that are no record are refused by name (log 8). -/
def performCode (c : Code) (s : State) : Host.Outcome State Fault Refusal :=
  match decode c with
  | .ok i => exec i s
  | .error e => .refused (.badRecord e)

/-- One interaction: a command word, a read of STATUS, or hardware reset (R29, R170, R178). -/
def perform (u : Input) (s : State) : Host.Outcome State Fault Refusal :=
  match u with
  | .code c => performCode c s
  | .readStatus => .next s.reportStatus
  | .hardwareReset => .next s.hardwareReset

/-- No interaction: the block is idle and holds its state (R166, R177). -/
def performNothing (s : State) : Host.Outcome State Fault Refusal := .next s

/-- The host's part while the block waits for a silent sink: STATUS can be read and the reset signal asserted,
and no further command is taken (R28, R53, R178; log 21). -/
def performWaiting (s : State) : Host.Outcome State Fault Refusal :=
  match s.input with
  | .readStatus :: _ => perform .readStatus s.takeInput
  | .hardwareReset :: _ => perform .hardwareReset s.takeInput
  | .code _ :: _ | [] => .next s

/-- A block that waits: when the sink answers, the command under way goes on; until then another turn of the
sink passes (R53; log 4). -/
def continueWaiting (w : Waiting) (s : State) : Host.Outcome State Fault Refusal :=
  match s.answerAt 0 with
  | some _ => exec w.instr s
  | none => performWaiting s.takeAnswer

/-- A block with no command under way: the host's next interaction is taken and performed. -/
def performNext (s : State) : Host.Outcome State Fault Refusal :=
  match s.input with
  | [] => performNothing s
  | u :: _ => perform u s.takeInput

/-- One step: a command that waits for the sink goes on; else the next interaction is taken from the host and
performed; with none to come the block is idle (R53, R59, R166). -/
def performStep (s : State) : Host.Outcome State Fault Refusal :=
  match s.waiting with
  | some w => continueWaiting w s
  | none => performNext s

/-- The code of `nbits` bits `w` becomes the host's next interaction, of a block with no command under way
(log 8, 11, 18). -/
def State.placeTableWord (s : State) (nbits w : Nat) : State :=
  { s with input := .code (tableWordCode nbits w) :: s.input, waiting := none }

end Sys2Proof.Machine
end

