-- ==== Sys2Proof/Machine/Step.lean ====
section
/-! DEFINITION. One step of the machine: the command that waits for the sink, or else the host's next
interaction (spec/20_memory.md R53, R59, R61, spec/70_reset_and_hazards.md R178). -/

namespace Sys2Proof.Machine

/-- One step of the machine (Machine/Interactions.lean). -/
def step (s : State) : Host.Outcome State Fault Refusal := performStep s

/-- `s` with the instruction of these `nbits` bits `w`, numbered as spec/opcode_table.json numbers them,
where the next step takes it: the host's next interaction. -/
def State.withFetchWord (s : State) (nbits w : Nat) : State := s.placeTableWord nbits w

end Sys2Proof.Machine
end

