-- ==== Sys2Proof/Machine/Assembler.lean ====
section
/-! DEFINITION. The assembler of commands and the disassembly of records (spec/30_encoding.md R74). -/

namespace Sys2Proof.Machine

/-- One line of assembly (R74). -/
inductive AsmLine where
  /-- `START W, H`. -/
  | start (w h : BitVec 32)
  /-- `PIXEL r, g, b, a`. -/
  | pixel (r g b a : Byte)
  /-- The pseudo-instruction `REPEAT n, PIXEL r, g, b, a`, for n ≥ 1. -/
  | repeatPixel (n : Nat) (r g b a : Byte)
  deriving DecidableEq, Repr

/-- The command words of a line; `none` for a REPEAT of 0 pixels, which is no line (R74). -/
def assembleLine : AsmLine → Option (List CommandWord)
  | .start w h => some [commandWord 0b01 (w ++ h)]
  | .pixel r g b a => some [commandWord 0b10 (0#32 ++ r ++ g ++ b ++ a)]
  | .repeatPixel n r g b a =>
    if n = 0 then none else some (List.replicate n (commandWord 0b10 (0#32 ++ r ++ g ++ b ++ a)))

/-- The command words of a text, line after line. -/
def assemble : List AsmLine → Option (List CommandWord)
  | [] => some []
  | l :: ls =>
    match assembleLine l, assemble ls with
    | some ws, some rest => some (ws ++ rest)
    | _, _ => none

/-- Disassembly: operands as numbers, deltas signed (R74). -/
inductive Disassembly where
  | start (w h : Nat)
  | pixel (r g b a : Nat)
  | index (i : Nat)
  | diff (dr dg db : Int)
  | luma (dg drdg dbdg : Int)
  | run (n : Nat)
  | rgb (r g b : Nat)
  | rgba (r g b a : Nat)
  | header (w h : Nat)
  | endMarker
  deriving DecidableEq, Repr

/-- The disassembly of an instruction; a reserved word has no syntax (R74). -/
def disassemble : Instr → Option Disassembly
  | .start w h => some (.start w.toNat h.toNat)
  | .pixel r g b a => some (.pixel r.toNat g.toNat b.toNat a.toNat)
  | .reserved _ => none
  | .index i => some (.index i.toNat)
  | .diff dr dg db => some (.diff (dr.toNat - 2) (dg.toNat - 2) (db.toNat - 2))
  | .luma dg drdg dbdg => some (.luma (dg.toNat - 32) (drdg.toNat - 8) (dbdg.toNat - 8))
  | .run lessOne => some (.run (lessOne.toNat + 1))
  | .rgb r g b => some (.rgb r.toNat g.toNat b.toNat)
  | .rgba r g b a => some (.rgba r.toNat g.toNat b.toNat a.toNat)
  | .header w h => some (.header w.toNat h.toNat)
  | .endMarker => some .endMarker

end Sys2Proof.Machine
end

