-- ==== Sys2Proof/Safety.lean ====
section
/-! DEFINITION. The terms claims are stated in: what the host and the sink do, what an encode's state
satisfies (spec/10_state.md R31 to R33), which bytes and which state the rules give a PIXEL step, and what
a stream of chunks says of its pixels (spec/30_encoding.md R84, R85). -/

namespace Sys2Proof.Machine

/-- A command of the host (R70), as against a record of the output stream. -/
def isCommand : Instr → Bool
  | .start _ _ | .pixel _ _ _ _ | .reserved _ => true
  | _ => false

/-- A chunk of the output stream (R77), as against the header, the end marker and a command. -/
def isChunk : Instr → Bool
  | .index _ | .diff _ _ _ | .luma _ _ _ | .run _ | .rgb _ _ _ | .rgba _ _ _ _ => true
  | _ => false

/-- One of R178's interactions, as against a record handed to the packer (log 8). -/
def Input.ofHost : Input → Bool
  | .code (.command _) => true
  | .code (.record _) => false
  | .readStatus => true
  | .hardwareReset => true

/-- The host sends nothing but R178's interactions. -/
def State.HostOnly (s : State) : Prop := ∀ u ∈ s.input, u.ofHost = true

/-- The sink accepts the append it is offered at each of its next `n` turns. -/
def State.SinkAccepts (s : State) (n : Nat) : Prop := ∀ k < n, s.answerAt k = some .accept

/-- The sink answers at each of its next `n` turns, one way or the other (R176). -/
def State.SinkAnswers (s : State) (n : Nat) : Prop := ∀ k < n, s.answerAt k ≠ none

/-- The eight elements of the block's own state are the same (R20). -/
def SameBlock (s t : State) : Prop :=
  s.cache = t.cache ∧ s.prev = t.prev ∧ s.run = t.run ∧ s.count = t.count ∧
    s.width = t.width ∧ s.height = t.height ∧ s.fsm = t.fsm ∧ s.cause = t.cause

/-- A fault has been entered from `s` (R156): fsm is ERROR and the cause is recorded; what the fault leaves
alone is as it was (R37), nothing the host still has to send is lost, and no command is under way. -/
def FaultEntered (s t : State) (c : Cause) : Prop :=
  t.fsm = .error ∧ t.cause = c ∧ t.width = s.width ∧ t.height = s.height ∧
    t.input = s.input ∧ t.statusReads = s.statusReads ∧ t.waiting = none

/-- The command does not match the state of the block, or is reserved: the PROTOCOL check of R153, R154. -/
def misused (i : Instr) (f : Fsm) : Bool :=
  match i with
  | .start _ _ => decide (f = .active)
  | .pixel _ _ _ _ => decide (f = .idle ∨ f = .done)
  | .reserved _ => decide (f ≠ .error)
  | _ => false

/-- A START whose W or H is out of range (R102, R151). -/
def startInvalid (i : Instr) : Bool :=
  match i with
  | .start w h => !dimensionsValid w h
  | _ => false

/-- The instruction is a START. -/
def isStart : Instr → Bool
  | .start _ _ => true
  | _ => false

/-- An encode has ended (R183): DONE is its success, ERROR never one. -/
def State.Ended (s : State) : Prop := s.fsm = .done ∨ s.fsm = .error

/-- The bytes of a record; none for a command. -/
def recordBytes (i : Instr) : List Byte :=
  match encode i with
  | .record bs => bs
  | .command _ => []

/-- W × H of the encode, exactly (R118). -/
def State.pixelTotal (s : State) : Nat := s.width.toNat * s.height.toNat

/-- Every slot holds (0,0,0,0) or a pixel whose hash is the slot's number (R32). -/
def State.SlotsPure (s : State) : Prop :=
  ∀ i : Slot, s.readCache i = Pixel.transparent ∨ pixelHash (s.readCache i) = i

/-- What the state satisfies from an accepted START on: the dimensions are valid (R102), run is at rest
below its cap (R31) and counts pixels of this encode, the slots are pure (R32); before the first PIXEL
`prev` and the cache hold their initial values (R36), and from then on cache[hash(prev)] == prev (R33). -/
def State.EncodeInv (s : State) : Prop :=
  dimensionsValid s.width s.height = true ∧ s.run.toNat ≤ 61 ∧ s.run.toNat ≤ s.count.toNat ∧
    s.SlotsPure ∧
    (s.count.toNat = 0 → s.prev = Pixel.opaqueBlack ∧
      s.cache = Vector.replicate 64 Pixel.transparent) ∧
    (0 < s.count.toNat → s.readCache (pixelHash s.prev) = s.prev)

/-- The chunk of a pixel `p` that differs from `prev = q`, by the priority INDEX, RGBA, DIFF, LUMA, RGB
(R114); `hit` says whether its slot holds it. -/
def chunkFor (p q : Pixel) (hit : Bool) : Instr :=
  if hit then .index (pixelHash p)
  else if p.a ≠ q.a then .rgba p.r p.g p.b p.a
  else if diffFits p q then
    .diff ((diffFields p q).dr.setWidth 2) ((diffFields p q).dg.setWidth 2)
      ((diffFields p q).db.setWidth 2)
  else if lumaFits p q then
    .luma ((lumaFields p q).lg.setWidth 6) ((lumaFields p q).lrg.setWidth 4)
      ((lumaFields p q).lbg.setWidth 4)
  else .rgb p.r p.g p.b

/-- The appends that close an open run of `n` pixels: one RUN chunk, or none where no run is open (R116,
R140). -/
def flushAppends (n : BitVec 6) : List (List Byte) :=
  if n.toNat = 0 then [] else [[BitVec.ofNat 8 (0xC0 + (n.toNat - 1))]]

/-- The appends of the pixel itself in a PIXEL step: on a run continuation none, or RUN 62 at the cap
(R115); otherwise the flush of the open run and one chunk (R116, R119). -/
def ownAppends (s : State) (p : Pixel) : List (List Byte) :=
  if p = s.prev then if s.run.toNat = 61 then [[0xFD]] else []
  else flushAppends s.run ++ [recordBytes (chunkFor p s.prev (s.cacheHit p))]

/-- `run` after the pixel and before the finalizer (R115, R116). -/
def runAfter (s : State) (p : Pixel) : BitVec 6 :=
  if p = s.prev then if s.run.toNat = 61 then 0 else s.run + 1 else 0

/-- The pixel is the image's last (R118). -/
def isLastPixel (s : State) : Bool := decide ((s.count + 1).toNat = s.pixelTotal)

/-- The appends of the finalizer where `n` pixels of a run are open (R140, R141). -/
def finalizerAppends (n : BitVec 6) : List (List Byte) := flushAppends n ++ [[0, 0, 0, 0, 0, 0, 0, 1]]

/-- The appends of the finalizer in a PIXEL step: none but on the last pixel (R118). -/
def lastAppends (s : State) (p : Pixel) : List (List Byte) :=
  if isLastPixel s then finalizerAppends (runAfter s p) else []

/-- The appends of a PIXEL step in ACTIVE, in order, each as its bytes (R52, R141). -/
def pixelAppends (s : State) (p : Pixel) : List (List Byte) := ownAppends s p ++ lastAppends s p

/-- The appends of an instruction performed in `s`, in order, each as its bytes (R52): those a sink that
accepts them all is offered. -/
def State.appendsOf (s : State) (i : Instr) : List (List Byte) :=
  match i with
  | .start w h => if s.fsm ≠ .active ∧ dimensionsValid w h = true then [headerBytes w h] else []
  | .pixel r g b a => if s.fsm = .active then pixelAppends s { r := r, g := g, b := b, a := a } else []
  | .reserved _ => []
  | .index _ | .diff _ _ _ | .luma _ _ _ | .run _ | .rgb _ _ _ | .rgba _ _ _ _ | .header _ _ =>
    [recordBytes i]
  | .endMarker => finalizerAppends s.run

/-- The state the rules give a PIXEL step in ACTIVE whose appends are all accepted (R113 to R118, R140). -/
def pixelResult (s : State) (p : Pixel) : State :=
  { s with
    out := s.out ++ (pixelAppends s p).flatten
    cache := if p = s.prev ∨ s.cacheHit p = false then s.cache.set (pixelHash p).toNat p (pixelHash p).isLt
      else s.cache
    prev := p
    run := if isLastPixel s then 0 else runAfter s p
    count := s.count + 1
    fsm := if isLastPixel s then .done else .active
    script := s.script.drop (pixelAppends s p).length
    turns := s.turns + (pixelAppends s p).length }

/-- A command that waits for the sink (R53): it is a command of the host, the sink has accepted some but not
all of its appends, and OUT ends in the bytes of those. -/
def State.WaitInv (s : State) : Prop :=
  ∀ w, s.waiting = some w → isCommand w.instr = true ∧ w.accepted < (s.appendsOf w.instr).length ∧
    ∃ before, s.out = before ++ ((s.appendsOf w.instr).take w.accepted).flatten

/-- The invariant of the machine: the host sends only R178's interactions, and a waiting command is as
`WaitInv` says; CAUSE is NONE exactly outside ERROR (R29); in ACTIVE the encode's state is as `EncodeInv` says
and pixels are still to come; in DONE all of them have been consumed and no run is open (R28, R140). -/
def State.Inv (s : State) : Prop :=
  s.HostOnly ∧ s.WaitInv ∧ (s.cause = .none ↔ s.fsm ≠ .error) ∧
    (s.fsm = .active → s.EncodeInv ∧ s.count.toNat < s.pixelTotal) ∧
    (s.fsm = .done → s.EncodeInv ∧ s.count.toNat = s.pixelTotal ∧ s.run = 0)

/-- The PIXEL command of a pixel. -/
def pixelCommand (p : Pixel) : Instr := .pixel p.r p.g p.b p.a

/-- Instructions executed one after the other, stopping at the first that does not give a next state. -/
def execAll : List Instr → State → Host.Outcome State Fault Refusal
  | [], s => .next s
  | i :: is, s =>
    match exec i s with
    | .next t => execAll is t
    | .fault f => .fault f
    | .refused r => .refused r

/-- What a checker that reads a chunk knows: the previous pixel and the pixels seen (R85). -/
structure Reader where
  prev : Pixel
  cache : Vector Pixel 64
  deriving DecidableEq, Repr

/-- The reader at the start of a stream (R36). -/
def Reader.start : Reader :=
  { prev := Pixel.opaqueBlack, cache := Vector.replicate 64 Pixel.transparent }

/-- A pixel has been read: it is the previous pixel, and its slot holds it (R22, R23). -/
def Reader.see (d : Reader) (p : Pixel) : Reader :=
  { prev := p, cache := d.cache.set (pixelHash p).toNat p (pixelHash p).isLt }

/-- The pixels of a chunk: a run repeats the previous pixel, INDEX names a slot, DIFF and LUMA carry deltas
(R85), RGB leaves alpha unchanged (R82). Only chunks stand for pixels. -/
def Reader.pixels (d : Reader) : Instr → List Pixel
  | .index i => [d.cache[i.toNat]'i.isLt]
  | .diff dr dg db => [recoverDiff d.prev dr dg db]
  | .luma dg drdg dbdg => [recoverLuma d.prev dg drdg dbdg]
  | .run lessOne => List.replicate (lessOne.toNat + 1) d.prev
  | .rgb r g b => [recoverRgb d.prev r g b]
  | .rgba r g b a => [{ r := r, g := g, b := b, a := a }]
  | _ => []

/-- The pixels a list of chunks stands for, in order. -/
def Reader.readAll : Reader → List Instr → List Pixel
  | _, [] => []
  | d, i :: is => d.pixels i ++ ((d.pixels i).foldl Reader.see d).readAll is

/-- The place of pixel (x, y) in scan order (R173). -/
def scanIndex (w x y : Nat) : Nat := x + y * w

/-- The commands of one encode, as the host must send them: START, then the pixels in scan order (R172,
R173). -/
def encodeCommands (w h : BitVec 32) (pixels : List Pixel) : List Instr :=
  .start w h :: pixels.map pixelCommand

end Sys2Proof.Machine
end

