-- ==== Sys2Proof/Certificates/Slice0/Obligations.lean ====
section
/-! DEFINITION. The statements for the provers, from the numbered rules of spec/. Each docstring names the
rules and sections it rests on; the numbers written out are the spec's own, not the model's names. -/

open Sys2Proof Sys2Proof.Machine

/-! Encodings (spec/30_encoding.md). -/

/-- Decode and encode agree: every well-formed instruction, with every operand at every value, is what its
own encoding decodes to (R70 to R83). -/
def Obligations.DecodeOfEncode : Prop :=
  ∀ i : Instr, WellFormed i → decode (encode i) = .ok i

/-- Every code has one meaning: what decodes is well-formed and encodes to the same word or bytes (R73, R77,
R86). -/
def Obligations.EncodeOfDecoded : Prop :=
  ∀ (c : Code) (i : Instr), decode c = .ok i → WellFormed i ∧ encode i = c

/-- A command word by its number: OP 01 is START with W and H, OP 10 with bits 63:32 zero is PIXEL with its
four channels, and every other word is reserved (R70 to R73). -/
def Obligations.CommandWordFields : Prop :=
  ∀ word : CommandWord,
    decode (.command word) = .ok
      (if word.toNat / 2 ^ 64 = 1 then
        .start (BitVec.ofNat 32 (word.toNat / 2 ^ 32 % 2 ^ 32)) (BitVec.ofNat 32 (word.toNat % 2 ^ 32))
      else if word.toNat / 2 ^ 64 = 2 ∧ word.toNat / 2 ^ 32 % 2 ^ 32 = 0 then
        .pixel (BitVec.ofNat 8 (word.toNat / 2 ^ 24 % 256)) (BitVec.ofNat 8 (word.toNat / 2 ^ 16 % 256))
          (BitVec.ofNat 8 (word.toNat / 2 ^ 8 % 256)) (BitVec.ofNat 8 (word.toNat % 256))
      else .reserved word)

/-- The opcode map of a chunk's first byte: every value selects exactly one kind, and the kind fixes the
length (R77). -/
def Obligations.FirstByteSelectsKind : Prop :=
  ∀ (b0 : Byte) (rest : List Byte),
    (b0.toNat ≤ 0x3F →
      if rest.length + 1 = 1 then ∃ i, decodeChunk b0 rest = .ok (.index i)
      else decodeChunk b0 rest = .error (.wrongLength b0 (rest.length + 1))) ∧
    (0x40 ≤ b0.toNat → b0.toNat ≤ 0x7F →
      if rest.length + 1 = 1 then ∃ dr dg db, decodeChunk b0 rest = .ok (.diff dr dg db)
      else decodeChunk b0 rest = .error (.wrongLength b0 (rest.length + 1))) ∧
    (0x80 ≤ b0.toNat → b0.toNat ≤ 0xBF →
      if rest.length + 1 = 2 then ∃ dg drdg dbdg, decodeChunk b0 rest = .ok (.luma dg drdg dbdg)
      else decodeChunk b0 rest = .error (.wrongLength b0 (rest.length + 1))) ∧
    (0xC0 ≤ b0.toNat → b0.toNat ≤ 0xFD →
      if rest.length + 1 = 1 then ∃ n, decodeChunk b0 rest = .ok (.run n)
      else decodeChunk b0 rest = .error (.wrongLength b0 (rest.length + 1))) ∧
    (b0.toNat = 0xFE →
      if rest.length + 1 = 4 then ∃ r g b, decodeChunk b0 rest = .ok (.rgb r g b)
      else decodeChunk b0 rest = .error (.wrongLength b0 (rest.length + 1))) ∧
    (b0.toNat = 0xFF →
      if rest.length + 1 = 5 then ∃ r g b a, decodeChunk b0 rest = .ok (.rgba r g b a)
      else decodeChunk b0 rest = .error (.wrongLength b0 (rest.length + 1)))

/-- The header's fourteen bytes, the sizes most significant byte first, and the end marker's eight (R75,
R76). -/
def Obligations.FixedRecordBytes : Prop :=
  (∀ w h : BitVec 32, encode (.header w h) = .record
    [0x71, 0x6F, 0x69, 0x66,
     BitVec.ofNat 8 (w.toNat / 2 ^ 24), BitVec.ofNat 8 (w.toNat / 2 ^ 16),
     BitVec.ofNat 8 (w.toNat / 2 ^ 8), BitVec.ofNat 8 w.toNat,
     BitVec.ofNat 8 (h.toNat / 2 ^ 24), BitVec.ofNat 8 (h.toNat / 2 ^ 16),
     BitVec.ofNat 8 (h.toNat / 2 ^ 8), BitVec.ofNat 8 h.toNat,
     0x04, 0x00]) ∧
  encode .endMarker = .record [0x00, 0x00, 0x00, 0x00, 0x00, 0x00, 0x00, 0x01]

/-- The bytes of each chunk kind by its formula: INDEX is the slot; DIFF is 0x40 | dr<<4 | dg<<2 | db; LUMA
is 0x80 | dg and drdg<<4 | dbdg; RUN of n pixels is 0xC0 | (n - 1), n from 1 to 62; RGB and RGBA are their
tag and raw channels (R78 to R83). -/
def Obligations.ChunkByteFormulas : Prop :=
  (∀ i, encode (.index i) = .record [BitVec.ofNat 8 i.toNat]) ∧
  (∀ dr dg db, encode (.diff dr dg db) =
    .record [BitVec.ofNat 8 (0x40 ||| dr.toNat <<< 4 ||| dg.toNat <<< 2 ||| db.toNat)]) ∧
  (∀ dg drdg dbdg, encode (.luma dg drdg dbdg) =
    .record [BitVec.ofNat 8 (0x80 ||| dg.toNat), BitVec.ofNat 8 (drdg.toNat <<< 4 ||| dbdg.toNat)]) ∧
  (∀ n : Nat, 1 ≤ n → n ≤ 62 → WellFormed (.run (BitVec.ofNat 6 (n - 1))) ∧
    encode (.run (BitVec.ofNat 6 (n - 1))) = .record [BitVec.ofNat 8 (0xC0 ||| (n - 1))] ∧
    0xC0 ||| (n - 1) ≤ 0xFD) ∧
  (∀ f : BitVec 6, WellFormed (.run f) ↔ f.toNat + 1 ≤ 62) ∧
  (∀ r g b, encode (.rgb r g b) = .record [0xFE, r, g, b]) ∧
  (∀ r g b a, encode (.rgba r g b a) = .record [0xFF, r, g, b, a])

/-- A few words and bytes of the spec's own vectors decode to what they stand for (spec/95_test_vectors.md
2.2 to 2.8; R70 to R83). -/
def Obligations.SampleCodesDecode : Prop :=
  decode (.command 0x1_00000064_000000C8#66) = .ok (.start 100 200) ∧
  decode (.command 0x2_00000000_0A141EFF#66) = .ok (.pixel 10 20 30 255) ∧
  decode (.command 0x2_00000001_000000FF#66) = .ok (.reserved 0x2_00000001_000000FF#66) ∧
  decode (.record [0x35]) = .ok (.index 53) ∧
  decode (.record [0x7A]) = .ok (.diff 3 2 2) ∧
  decode (.record [0x80, 0x0F]) = .ok (.luma 0 0 15) ∧
  decode (.record [0xFD]) = .ok (.run 61) ∧
  decode (.record [0xFE, 0x80, 0x00, 0x00]) = .ok (.rgb 128 0 0) ∧
  decode (.record [0xFF, 0x01, 0x02, 0x03, 0x04]) = .ok (.rgba 1 2 3 4)

/-- A stream of chunks is cut into its chunks from the first bytes alone (R77, R84). -/
def Obligations.CutRecoversChunks : Prop :=
  ∀ is : List Instr, (∀ i ∈ is, isChunk i = true ∧ WellFormed i) →
    cutChunks (is.flatMap recordBytes) = some is

/-- Assembled words are the commands they are written for, REPEAT n stands for n PIXELs, and a text's words
are those of its lines in order (R74). -/
def Obligations.AssembledWordsDecode : Prop :=
  (∀ w h : BitVec 32, ∃ word, assemble [.start w h] = some [word] ∧
    decode (.command word) = .ok (.start w h)) ∧
  (∀ r g b a : Byte, ∃ word, assemble [.pixel r g b a] = some [word] ∧
    decode (.command word) = .ok (.pixel r g b a)) ∧
  (∀ (n : Nat) (r g b a : Byte), 1 ≤ n →
    assemble [.repeatPixel n r g b a] = assemble (List.replicate n (.pixel r g b a))) ∧
  (∀ (l : AsmLine) (ls : List AsmLine) (ws rest : List CommandWord),
    assembleLine l = some ws → assemble ls = some rest → assemble (l :: ls) = some (ws ++ rest))

/-! Pure functions (spec/41_classifier.md, spec/30_encoding.md). -/

/-- The hash: its formula on naturals; the sum before reduction is at most 6630; the reduction may be made
per product; and the table's six values (R110). -/
def Obligations.HashFormula : Prop :=
  (∀ p : Pixel,
    (pixelHash p).toNat = (p.r.toNat * 3 + p.g.toNat * 5 + p.b.toNat * 7 + p.a.toNat * 11) % 64 ∧
    p.r.toNat * 3 + p.g.toNat * 5 + p.b.toNat * 7 + p.a.toNat * 11 ≤ 6630 ∧
    (pixelHash p).toNat = ((p.r.toNat * 3 % 64 + p.g.toNat * 5 % 64) % 64 +
      (p.b.toNat * 7 % 64 + p.a.toNat * 11 % 64) % 64) % 64) ∧
  pixelHash { r := 0, g := 0, b := 0, a := 0 } = 0 ∧
  pixelHash { r := 0, g := 0, b := 0, a := 255 } = 53 ∧
  pixelHash { r := 128, g := 0, b := 0, a := 255 } = 53 ∧
  pixelHash { r := 0, g := 128, b := 0, a := 255 } = 53 ∧
  pixelHash { r := 129, g := 0, b := 0, a := 255 } = 56 ∧
  pixelHash { r := 255, g := 255, b := 255, a := 255 } = 38

/-- The delta fields are the mathematical moduli of the rule, on integers, and the two tests are the bounds
3, 63 and 15 on them (R9, R112). -/
def Obligations.DeltaFieldsAreModular : Prop :=
  ∀ p q : Pixel,
    ((diffFields p q).dr.toNat : Int) = ((p.r.toNat : Int) - q.r.toNat + 2) % 256 ∧
    ((diffFields p q).dg.toNat : Int) = ((p.g.toNat : Int) - q.g.toNat + 2) % 256 ∧
    ((diffFields p q).db.toNat : Int) = ((p.b.toNat : Int) - q.b.toNat + 2) % 256 ∧
    ((lumaFields p q).lg.toNat : Int) = ((p.g.toNat : Int) - q.g.toNat + 32) % 256 ∧
    ((lumaFields p q).lrg.toNat : Int) =
      (((p.r.toNat : Int) - q.r.toNat) - ((p.g.toNat : Int) - q.g.toNat) + 8) % 256 ∧
    ((lumaFields p q).lbg.toNat : Int) =
      (((p.b.toNat : Int) - q.b.toNat) - ((p.g.toNat : Int) - q.g.toNat) + 8) % 256 ∧
    (diffFits p q = true ↔ (diffFields p q).dr.toNat ≤ 3 ∧ (diffFields p q).dg.toNat ≤ 3 ∧
      (diffFields p q).db.toNat ≤ 3) ∧
    (lumaFits p q = true ↔ (lumaFields p q).lg.toNat ≤ 63 ∧ (lumaFields p q).lrg.toNat ≤ 15 ∧
      (lumaFields p q).lbg.toNat ≤ 15)

/-- Operand recovery inverts DIFF and LUMA: the fields a chunk carries name the pixel they were made from,
and the pixel recovered from any fields has those fields (R79, R80, R85). -/
def Obligations.RecoveryInvertsFields : Prop :=
  (∀ p q : Pixel, p.a = q.a → diffFits p q = true →
    recoverDiff q ((diffFields p q).dr.setWidth 2) ((diffFields p q).dg.setWidth 2)
      ((diffFields p q).db.setWidth 2) = p) ∧
  (∀ p q : Pixel, p.a = q.a → lumaFits p q = true →
    recoverLuma q ((lumaFields p q).lg.setWidth 6) ((lumaFields p q).lrg.setWidth 4)
      ((lumaFields p q).lbg.setWidth 4) = p) ∧
  (∀ (q : Pixel) (dr dg db : BitVec 2), diffFits (recoverDiff q dr dg db) q = true ∧
    diffFields (recoverDiff q dr dg db) q =
      { dr := dr.setWidth 8, dg := dg.setWidth 8, db := db.setWidth 8 }) ∧
  (∀ (q : Pixel) (dg : BitVec 6) (drdg dbdg : BitVec 4),
    lumaFits (recoverLuma q dg drdg dbdg) q = true ∧
    lumaFields (recoverLuma q dg drdg dbdg) q =
      { lg := dg.setWidth 8, lrg := drdg.setWidth 8, lbg := dbdg.setWidth 8 })

/-- The chunk of a pixel, read back by a checker that knows `prev` and the cache, is that pixel and no other
(R82 to R85, R114). -/
def Obligations.ChunkNamesItsPixel : Prop :=
  ∀ (d : Reader) (p : Pixel),
    d.pixels (chunkFor p d.prev (decide (d.cache[(pixelHash p).toNat]'(pixelHash p).isLt = p))) = [p]

/-! START (spec/40_header.md). -/

/-- START outside ACTIVE with valid dimensions and an accepting sink begins an encode: the fresh encoder
state, the header, ACTIVE, and no cause; nothing else changes (R36, R100, R101). -/
def Obligations.StartBeginsEncode : Prop :=
  ∀ (w h : BitVec 32) (s : State), s.waiting = none → s.fsm ≠ .active →
    1 ≤ w.toNat → w.toNat ≤ Config.dimMax → 1 ≤ h.toNat → h.toNat ≤ Config.dimMax →
    s.SinkAccepts 1 →
    exec (.start w h) s = .next
      { s with
        cache := Vector.replicate 64 { r := 0, g := 0, b := 0, a := 0 }
        prev := { r := 0, g := 0, b := 0, a := 255 }
        run := 0
        count := 0
        width := w
        height := h
        fsm := .active
        cause := .none
        out := s.out ++ headerBytes w h
        script := s.script.tail
        turns := s.turns + 1 }

/-- The only dimensions START rejects are W = 0 and H = 0: outside ACTIVE, a completed START ends in
INVALID_INPUT exactly then (R7, R102; DIM_MAX is the spec's 2^32 - 1, log 12). -/
def Obligations.OnlyZeroDimensionsInvalid : Prop :=
  ∀ (w h : BitVec 32) (s t : State), s.fsm ≠ .active → exec (.start w h) s = .next t →
    t.waiting = none → (t.cause = .invalidInput ↔ w = 0 ∨ h = 0)

/-- InvalidInput: a START outside ACTIVE whose W or H is out of range ends in ERROR with INVALID_INPUT; no
byte is appended and the sink is not asked (R151). -/
def Obligations.InvalidStartFaults : Prop :=
  ∀ (w h : BitVec 32) (s : State), s.fsm ≠ .active →
    ¬ (1 ≤ w.toNat ∧ w.toNat ≤ Config.dimMax ∧ 1 ≤ h.toNat ∧ h.toNat ≤ Config.dimMax) →
    ∃ t, exec (.start w h) s = .next t ∧ FaultEntered s t .invalidInput ∧ t.out = s.out ∧
      t.script = s.script ∧ t.turns = s.turns

/-- A START whose header append fails leaves the accepted bytes of the header in OUT, ERROR and SINK_FAILURE,
and the dimensions it latched (R36, R37, R100, R104, R152). -/
def Obligations.StartSinkFailure : Prop :=
  ∀ (w h : BitVec 32) (s : State) (k : Nat), s.waiting = none → s.fsm ≠ .active →
    w ≠ 0 → h ≠ 0 → k ≤ 14 → s.answerAt 0 = some (.fail k) →
    ∃ t, exec (.start w h) s = .next t ∧ t.fsm = .error ∧ t.cause = .sinkFailure ∧
      t.out = s.out ++ (headerBytes w h).take k ∧ t.width = w ∧ t.height = h ∧
      t.input = s.input ∧ t.statusReads = s.statusReads ∧ t.waiting = none

/-- Independence of encodes: two STARTs with the same W and H that reach ACTIVE, from any two states, leave
the same block and append the same bytes (R35, R103). -/
def Obligations.EncodesAreIndependent : Prop :=
  ∀ (w h : BitVec 32) (s₁ s₂ t₁ t₂ : State), s₁.waiting = none → s₂.waiting = none →
    s₁.fsm ≠ .active → s₂.fsm ≠ .active →
    exec (.start w h) s₁ = .next t₁ → exec (.start w h) s₂ = .next t₂ →
    t₁.fsm = .active → t₂.fsm = .active →
    SameBlock t₁ t₂ ∧ ∃ bs, t₁.out = s₁.out ++ bs ∧ t₂.out = s₂.out ++ bs

/-! PIXEL (spec/41_classifier.md). -/

/-- A PIXEL in ACTIVE whose appends the sink accepts does what the seven steps, the end of the step and the
finalizer say, and changes nothing else: `pixelResult` gives the bytes, the slot written, prev, run, count
and fsm (R113 to R118, R130, R140, R141). -/
def Obligations.PixelStepResult : Prop :=
  ∀ (p : Pixel) (s : State), s.waiting = none → s.fsm = .active →
    s.SinkAccepts (pixelAppends s p).length → exec (.pixel p.r p.g p.b p.a) s = .next (pixelResult s p)

/-- Run continuation, below the image's last pixel: the slot holds P, run counts it and no byte is emitted,
unless it makes the 62nd, which emits FD and resets run; run is at rest below 62 (R24, R115). -/
def Obligations.RunContinuation : Prop :=
  ∀ (p : Pixel) (s : State), s.waiting = none → s.fsm = .active → p = s.prev → s.run.toNat ≤ 61 →
    s.count.toNat + 1 < s.width.toNat * s.height.toNat → s.SinkAccepts 1 →
    ∃ t, exec (.pixel p.r p.g p.b p.a) s = .next t ∧ t.fsm = .active ∧
      t.readCache (pixelHash p) = p ∧ t.prev = p ∧ t.run.toNat ≤ 61 ∧
      (s.run.toNat + 1 < 62 → t.out = s.out ∧ t.run.toNat = s.run.toNat + 1 ∧ t.turns = s.turns) ∧
      (s.run.toNat + 1 = 62 → t.out = s.out ++ [0xFD] ∧ t.run = 0 ∧ t.turns = s.turns + 1)

/-- Run flush: a differing pixel that meets an open run first emits RUN run, one byte, and resets run; its own
chunk by steps 3 to 7 follows, and behind it only what the finalizer adds on the last pixel: the flush never
consumes the pixel (R114, R116, R118, R140). -/
def Obligations.RunFlushComesFirst : Prop :=
  ∀ (p : Pixel) (s : State), s.waiting = none → s.fsm = .active → p ≠ s.prev → 0 < s.run.toNat →
    s.SinkAccepts (pixelAppends s p).length →
    ∃ t, exec (.pixel p.r p.g p.b p.a) s = .next t ∧ t.run = 0 ∧
      t.out = s.out ++ [BitVec.ofNat 8 (0xC0 ||| (s.run.toNat - 1))] ++
        recordBytes (chunkFor p s.prev (s.cacheHit p)) ++
        if (s.count + 1).toNat = s.width.toNat * s.height.toNat then [0, 0, 0, 0, 0, 0, 0, 1] else []

/-- The priority of the five chunk kinds, for a pixel that differs from prev with no run open and is not the
last: INDEX on a cache hit, which writes no slot; else RGBA where alpha changes, DIFF where the deltas fit,
LUMA where its fields fit, RGB otherwise, each of which writes the slot (R113, R114, R131 to R135). -/
def Obligations.ChunkPriority : Prop :=
  ∀ (p : Pixel) (s : State), s.waiting = none → s.fsm = .active → p ≠ s.prev → s.run = 0 →
    (s.count + 1).toNat ≠ s.width.toNat * s.height.toNat → s.SinkAccepts 1 →
    ∃ t, exec (.pixel p.r p.g p.b p.a) s = .next t ∧ t.fsm = .active ∧
      (if s.readCache (pixelHash p) = p then
        t.out = s.out ++ [BitVec.ofNat 8 (pixelHash p).toNat] ∧ t.cache = s.cache
      else
        t.cache = s.cache.set (pixelHash p).toNat p (pixelHash p).isLt ∧
        if p.a ≠ s.prev.a then t.out = s.out ++ [0xFF, p.r, p.g, p.b, p.a]
        else if diffFits p s.prev then
          t.out = s.out ++ [BitVec.ofNat 8 (0x40 ||| (diffFields p s.prev).dr.toNat <<< 4 |||
            (diffFields p s.prev).dg.toNat <<< 2 ||| (diffFields p s.prev).db.toNat)]
        else if lumaFits p s.prev then
          t.out = s.out ++ [BitVec.ofNat 8 (0x80 ||| (lumaFields p s.prev).lg.toNat),
            BitVec.ofNat 8 ((lumaFields p s.prev).lrg.toNat <<< 4 ||| (lumaFields p s.prev).lbg.toNat)]
        else t.out = s.out ++ [0xFE, p.r, p.g, p.b])

/-- Every PIXEL step performed in ACTIVE that completes and raises no fault ends with prev <- P (R117). -/
def Obligations.PixelBecomesPrev : Prop :=
  ∀ (p : Pixel) (s t : State), s.fsm = .active → exec (.pixel p.r p.g p.b p.a) s = .next t →
    t.waiting = none → t.fsm ≠ .error → t.prev = p

/-- Every PIXEL step performed in ACTIVE that completes and raises no fault counts one pixel, and runs the
finalizer exactly when count has become width × height (R26, R118, R140). -/
def Obligations.PixelCountsAndFinishes : Prop :=
  ∀ (p : Pixel) (s t : State), s.waiting = none → s.fsm = .active →
    exec (.pixel p.r p.g p.b p.a) s = .next t → t.waiting = none → t.fsm ≠ .error →
    t.count = s.count + 1 ∧ t.width = s.width ∧ t.height = s.height ∧
    if (s.count + 1).toNat = s.width.toNat * s.height.toNat then
      t.fsm = .done ∧ t.run = 0 ∧ ∃ own, t.out = s.out ++ own ++ [0, 0, 0, 0, 0, 0, 0, 1]
    else t.fsm = .active

/-- Classification is total: a PIXEL step in ACTIVE that completes and raises no fault emits nothing, RUN 62,
one non-run chunk, or a RUN chunk and one non-run chunk, then perhaps the finalizer's bytes (R119). Each RUN
is a run of 1 to 62 pixels (R81), given that run rests at most at 61 (R31, kept by InvariantKept). -/
def Obligations.PixelEmitsOneOfFour : Prop :=
  ∀ (p : Pixel) (s t : State), s.waiting = none → s.fsm = .active → s.run.toNat ≤ 61 →
    exec (.pixel p.r p.g p.b p.a) s = .next t → t.waiting = none → t.fsm ≠ .error →
    ∃ own last : List Byte, t.out = s.out ++ own ++ last ∧
      (own = [] ∨ own = [0xFD] ∨
        ∃ i, isChunk i = true ∧ WellFormed i ∧ (∀ n, i ≠ .run n) ∧
          (own = recordBytes i ∨
            ∃ n, WellFormed (.run n) ∧ own = recordBytes (.run n) ++ recordBytes i)) ∧
      (last = [] ∨ last = [0, 0, 0, 0, 0, 0, 0, 1] ∨
        ∃ n, WellFormed (.run n) ∧ last = recordBytes (.run n) ++ [0, 0, 0, 0, 0, 0, 0, 1])

/-- What the block never emits for a pixel that differs from prev: DIFF with all deltas 0 (6A), a literal or
LUMA where an earlier kind fits, RGBA with prev's alpha, or anything but INDEX for a pixel in its slot (R87).
Stated of a step that is not the image's last, behind the flush of the open run. -/
def Obligations.NeverEmittedChunks : Prop :=
  ∀ (p : Pixel) (s t : State), s.waiting = none → s.fsm = .active →
    exec (.pixel p.r p.g p.b p.a) s = .next t → t.waiting = none → t.fsm = .active → p ≠ s.prev →
    ∃ b0 rest, t.out = s.out ++ (flushAppends s.run).flatten ++ b0 :: rest ∧ b0 ≠ 0x6A ∧
      (s.cacheHit p = true → b0.toNat ≤ 0x3F) ∧
      (b0 = 0xFF → p.a ≠ s.prev.a) ∧
      (0x80 ≤ b0.toNat ∧ b0.toNat ≤ 0xBF → diffFits p s.prev = false) ∧
      (b0 = 0xFE → diffFits p s.prev = false ∧ lumaFits p s.prev = false) ∧
      ¬ (0xC0 ≤ b0.toNat ∧ b0.toNat ≤ 0xFD)

/-- The cache write of a run step puts back what is there once a pixel has been consumed; at the start of an
encode it writes (0,0,0,255) into slot 53 (R115, R120). -/
def Obligations.RunStepCacheWrite : Prop :=
  ∀ (p : Pixel) (s t : State), s.fsm = .active → p = s.prev →
    exec (.pixel p.r p.g p.b p.a) s = .next t → t.waiting = none → t.fsm ≠ .error →
    (s.readCache (pixelHash s.prev) = s.prev → t.cache = s.cache) ∧
    (s.prev = { r := 0, g := 0, b := 0, a := 255 } →
      t.cache = s.cache.set 53 { r := 0, g := 0, b := 0, a := 255 })

/-- A PIXEL step's bytes and new state are a function of the command, the block's state and the sink's
answers, and so are those of every other instruction: nothing else in the state has any influence (R121). -/
def Obligations.BytesDependOnBlockAndSink : Prop :=
  ∀ (i : Instr) (s₁ s₂ t₁ : State), SameBlock s₁ s₂ → s₁.waiting = s₂.waiting →
    (∀ k < 3, s₁.answerAt k = s₂.answerAt k) → exec i s₁ = .next t₁ →
    ∃ t₂, exec i s₂ = .next t₂ ∧ (∃ bs, t₁.out = s₁.out ++ bs ∧ t₂.out = s₂.out ++ bs) ∧
      t₁.fsm = t₂.fsm ∧ t₁.cause = t₂.cause ∧ t₁.waiting = t₂.waiting ∧
      (t₁.fsm ≠ .error → SameBlock t₁ t₂)

/-! The packer's procedures as instructions (spec/42_chunks.md, spec/43_finalizer.md; log 8 to 10). -/

/-- INDEX i appends its byte and writes no other state (R78, R131). -/
def Obligations.IndexAppendsSlot : Prop :=
  ∀ (i : Slot) (s : State), s.waiting = none → s.SinkAccepts 1 →
    exec (.index i) s = .next
      { s with
        out := s.out ++ [BitVec.ofNat 8 i.toNat]
        script := s.script.tail
        turns := s.turns + 1 }

/-- RUN appends 0xC0 | (n - 1) for its length n and sets run to 0 (R81, R130). -/
def Obligations.RunAppendsLength : Prop :=
  ∀ (n : Nat) (s : State), 1 ≤ n → n ≤ 62 → s.waiting = none → s.SinkAccepts 1 →
    exec (.run (BitVec.ofNat 6 (n - 1))) s = .next
      { s with
        out := s.out ++ [BitVec.ofNat 8 (0xC0 ||| (n - 1))]
        run := 0
        script := s.script.tail
        turns := s.turns + 1 }

/-- RGBA appends its tag and four channels and writes the pixel into its slot (R83, R132). -/
def Obligations.RgbaAppendsChannels : Prop :=
  ∀ (p : Pixel) (s : State), s.waiting = none → s.SinkAccepts 1 →
    exec (.rgba p.r p.g p.b p.a) s = .next
      { s with
        out := s.out ++ [0xFF, p.r, p.g, p.b, p.a]
        cache := s.cache.set (pixelHash p).toNat p (pixelHash p).isLt
        script := s.script.tail
        turns := s.turns + 1 }

/-- RGB appends its tag and three channels and writes the pixel, with prev's alpha, into its slot (R82,
R135; that the alpha is prev's is log 9). -/
def Obligations.RgbAppendsChannels : Prop :=
  ∀ (p : Pixel) (s : State), p.a = s.prev.a → s.waiting = none → s.SinkAccepts 1 →
    exec (.rgb p.r p.g p.b) s = .next
      { s with
        out := s.out ++ [0xFE, p.r, p.g, p.b]
        cache := s.cache.set (pixelHash p).toNat p (pixelHash p).isLt
        script := s.script.tail
        turns := s.turns + 1 }

/-- DIFF appends its one byte and writes the pixel its fields name into its slot (R79, R85, R133; that the
fields name the pixel is log 9). -/
def Obligations.DiffAppendsFields : Prop :=
  ∀ (dr dg db : BitVec 2) (p : Pixel) (s : State),
    p.r = s.prev.r + dr.setWidth 8 - 2 → p.g = s.prev.g + dg.setWidth 8 - 2 →
    p.b = s.prev.b + db.setWidth 8 - 2 → p.a = s.prev.a → s.waiting = none → s.SinkAccepts 1 →
    exec (.diff dr dg db) s = .next
      { s with
        out := s.out ++ [BitVec.ofNat 8 (0x40 ||| dr.toNat <<< 4 ||| dg.toNat <<< 2 ||| db.toNat)]
        cache := s.cache.set (pixelHash p).toNat p (pixelHash p).isLt
        script := s.script.tail
        turns := s.turns + 1 }

/-- LUMA appends its two bytes and writes the pixel its fields name into its slot (R80, R85, R134; that the
fields name the pixel is log 9). -/
def Obligations.LumaAppendsFields : Prop :=
  ∀ (dg : BitVec 6) (drdg dbdg : BitVec 4) (p : Pixel) (s : State),
    p.g = s.prev.g + (dg.setWidth 8 - 32) →
    p.r = s.prev.r + ((dg.setWidth 8 - 32) + drdg.setWidth 8 - 8) →
    p.b = s.prev.b + ((dg.setWidth 8 - 32) + dbdg.setWidth 8 - 8) → p.a = s.prev.a →
    s.waiting = none → s.SinkAccepts 1 →
    exec (.luma dg drdg dbdg) s = .next
      { s with
        out := s.out ++ [BitVec.ofNat 8 (0x80 ||| dg.toNat),
          BitVec.ofNat 8 (drdg.toNat <<< 4 ||| dbdg.toNat)]
        cache := s.cache.set (pixelHash p).toNat p (pixelHash p).isLt
        script := s.script.tail
        turns := s.turns + 1 }

/-- HEADER W, H appends the header as one append and writes no other state (R75, R101). -/
def Obligations.HeaderAppendsRecord : Prop :=
  ∀ (w h : BitVec 32) (s : State), s.waiting = none → s.SinkAccepts 1 →
    exec (.header w h) s = .next
      { s with
        out := s.out ++ headerBytes w h
        script := s.script.tail
        turns := s.turns + 1 }

/-- END, the finalizer: an open run is flushed and run becomes 0, the end marker follows, and fsm becomes
DONE; cache, prev, count, width and height keep their values (R140). -/
def Obligations.EndFinalizes : Prop :=
  ∀ s : State, s.waiting = none → s.SinkAccepts (if s.run = 0 then 1 else 2) →
    exec .endMarker s = .next
      { s with
        out := s.out ++ (if s.run = 0 then [] else [BitVec.ofNat 8 (0xC0 ||| (s.run.toNat - 1))]) ++
          [0, 0, 0, 0, 0, 0, 0, 1]
        run := 0
        fsm := .done
        script := s.script.drop (if s.run = 0 then 1 else 2)
        turns := s.turns + (if s.run = 0 then 1 else 2) }

/-- A chunk, the header or the finalizer with an append that fails, each one before it accepted: OUT keeps the
bytes accepted before it and its own first k, and the block enters SINK_FAILURE; no further state write of the
step takes effect (R52, R152, R156). A k beyond the bytes offered means all of them, the model's reading of an
answer R52 does not admit (log 13). -/
def Obligations.RecordSinkFailure : Prop :=
  ∀ (i : Instr) (s : State) (m k : Nat), isCommand i = false → s.waiting = none →
    m < (s.appendsOf i).length → s.SinkAccepts m → s.answerAt m = some (.fail k) →
    ∃ t, exec i s = .next t ∧ FaultEntered s t .sinkFailure ∧
      t.out = s.out ++ ((s.appendsOf i).take m).flatten ++ ((s.appendsOf i).getD m []).take k ∧
      t.turns = s.turns + m + 1

/-! Faults (spec/60_exceptions.md). -/

/-- ProtocolError: START in ACTIVE, PIXEL in IDLE or DONE, and a reserved word outside ERROR enter ERROR with
cause PROTOCOL; no byte is appended (R153). -/
def Obligations.MisuseIsProtocolFault : Prop :=
  ∀ (i : Instr) (s : State), misused i s.fsm = true →
    ∃ t, exec i s = .next t ∧ FaultEntered s t .protocol ∧ t.out = s.out ∧
      t.script = s.script ∧ t.turns = s.turns

/-- In ERROR a PIXEL and a reserved word do nothing: nothing is emitted, and the first cause stays (R73,
R158). -/
def Obligations.ErrorAbsorbs : Prop :=
  ∀ s : State, s.waiting = none → s.fsm = .error →
    (∀ r g b a, exec (.pixel r g b a) s = .next s) ∧ (∀ word, exec (.reserved word) s = .next s)

/-- The order of checks of a completed command: absorption in ERROR, then protocol, then the dimensions, then
the sink, at the first append it does not accept; one cause per command (R154). -/
def Obligations.ChecksInOrder : Prop :=
  ∀ (i : Instr) (s t : State), s.waiting = none → isCommand i = true → exec i s = .next t →
    t.waiting = none →
    if s.fsm = .error ∧ isStart i = false then t = s
    else if misused i s.fsm = true then t.fsm = .error ∧ t.cause = .protocol
    else if startInvalid i = true then t.fsm = .error ∧ t.cause = .invalidInput
    else t.fsm = .error → t.cause = .sinkFailure ∧
      ∃ k < 3, s.SinkAccepts k ∧ ∃ n, s.answerAt k = some (.fail n)

/-- The transitions of fsm and cause at a command are those of the table and no other (R28); a command whose
step still waits for the sink has made none (R53). -/
def Obligations.FsmTransitions : Prop :=
  ∀ (i : Instr) (s t : State), s.waiting = none → isCommand i = true → exec i s = .next t →
    if t.waiting ≠ none then t.fsm = s.fsm ∧ t.cause = s.cause
    else match i with
    | .start w h =>
      if s.fsm = .active then t.fsm = .error ∧ t.cause = .protocol
      else if w = 0 ∨ h = 0 then t.fsm = .error ∧ t.cause = .invalidInput
      else (s.SinkAccepts 1 ∧ t.fsm = .active ∧ t.cause = .none) ∨
        (¬ s.SinkAccepts 1 ∧ t.fsm = .error ∧ t.cause = .sinkFailure)
    | .pixel r g b a =>
      match s.fsm with
      | .active =>
        (s.SinkAccepts (pixelAppends s { r := r, g := g, b := b, a := a }).length ∧ t.cause = s.cause ∧
          t.fsm = if (s.count + 1).toNat = s.width.toNat * s.height.toNat then .done else .active) ∨
        (¬ s.SinkAccepts (pixelAppends s { r := r, g := g, b := b, a := a }).length ∧
          t.fsm = .error ∧ t.cause = .sinkFailure)
      | .idle | .done => t.fsm = .error ∧ t.cause = .protocol
      | .error => t.fsm = .error ∧ t.cause = s.cause
    | _ => t.fsm = .error ∧ t.cause = if s.fsm = .error then s.cause else .protocol

/-- The only way out of ERROR at a step is hardware reset or a valid START, a new one or one that waited for
the sink, whose header is accepted (R28, R159). -/
def Obligations.OnlyStartOrResetLeavesError : Prop :=
  ∀ s t : State, s.HostOnly → s.WaitInv → s.fsm = .error → step s = .next t → t.fsm ≠ .error →
    (∃ rest, s.input = .hardwareReset :: rest ∧ t.fsm = .idle) ∨
    (t.fsm = .active ∧ t.cause = .none ∧ t.waiting = none ∧ s.answerAt 0 = some .accept ∧
      ∃ w h, w ≠ 0 ∧ h ≠ 0 ∧
        ((s.waiting = none ∧ ∃ c rest, s.input = .code c :: rest ∧ decode c = .ok (.start w h)) ∨
          s.waiting = some { instr := .start w h, accepted := 0 }))

/-- What a step has appended, whether it failed, waits or is complete, is a prefix of the bytes of the step
with an accepting sink; a complete step that raises no fault has appended all of them (R51, R53, R152,
R157). -/
def Obligations.FailedStepLeavesPrefix : Prop :=
  ∀ (i : Instr) (s t u : State), s.waiting = none → exec i s = .next t →
    exec i { s with script := [some .accept, some .accept, some .accept] } = .next u →
    (∃ rest, u.out = t.out ++ rest) ∧ (t.waiting = none → t.fsm ≠ .error → t.out = u.out)

/-! The sink (spec/20_memory.md). -/

/-- Every step of the machine only appends to OUT: no byte already accepted changes (R51). -/
def Obligations.OutputOnlyGrows : Prop :=
  ∀ s t : State, step s = .next t →
    (∃ bs, t.out = s.out ++ bs) ∧ ∀ a < s.out.length, t.outByte a = s.outByte a

/-- Outside ACTIVE only a START, a new one or one that waits for the sink, emits anything: every other
interaction of the host leaves every byte of OUT, and OUT as a whole, as it was (R142, R153, R158, R171). -/
def Obligations.OnlyStartEmitsOutsideActive : Prop :=
  ∀ s t : State, s.HostOnly → s.WaitInv → s.fsm ≠ .active →
    (∀ c rest, s.input = .code c :: rest → ∀ w h, decode c ≠ .ok (.start w h)) →
    (∀ v, s.waiting = some v → isStart v.instr = false) →
    step s = .next t → t.out = s.out

/-- A step that reaches DONE ends OUT with the end marker, whether it took a new command or went on with one
that waited (R140, R142). -/
def Obligations.DoneEndsWithEndMarker : Prop :=
  ∀ s t : State, s.HostOnly → s.WaitInv → s.fsm ≠ .done → step s = .next t → t.fsm = .done →
    ∃ before, t.out = before ++ [0, 0, 0, 0, 0, 0, 0, 1]

/-- No instruction stops the machine, and no interaction of the host does; while the sink answers, every
instruction completes (R53, R155, R176, R182). -/
def Obligations.AnsweredInstructionsComplete : Prop :=
  (∀ (i : Instr) (s : State), ∃ t, exec i s = .next t) ∧
  (∀ s : State, s.HostOnly → ∃ t, step s = .next t) ∧
  (∀ (i : Instr) (s : State), s.SinkAnswers 3 → ∃ t, exec i s = .next t ∧ t.waiting = none)

/-- The append at which the sink gives no answer, be it the first of the step or a later one: the step does not
complete, every element of the block, and so STATUS, keeps its value from before the step, OUT keeps the bytes
the sink has accepted, and the command stays under way (R53; how it is held is the model's choice, log 4). -/
def Obligations.SilentSinkIsStuck : Prop :=
  ∀ (i : Instr) (s : State) (m : Nat), s.waiting = none → m < (s.appendsOf i).length →
    s.SinkAccepts m → s.answerAt m = none →
    exec i s = .next
      { s with
        out := s.out ++ ((s.appendsOf i).take m).flatten
        script := s.script.drop (m + 1)
        turns := s.turns + m + 1
        waiting := some { instr := i, accepted := m } }

/-! The machine as a whole (spec/10_state.md, spec/70_reset_and_hazards.md). -/

/-- What an instruction never touches: the host's pending interactions and the STATUS values read; the
dimensions, unless it is a START (R27, R29). -/
def Obligations.InstructionFrame : Prop :=
  ∀ (i : Instr) (s t : State), exec i s = .next t →
    t.input = s.input ∧ t.statusReads = s.statusReads ∧
    (isStart i = false → t.width = s.width ∧ t.height = s.height)

/-- STATUS by its table: FSM in bits 1:0, CAUSE in bits 3:2, bits 7:4 zero; reading it gives the host that
value and has no side effect (R29, R178; the log of values read is the model's own, log 14). A read while a
command waits for the sink is in WaitingTakesNoCommand. -/
def Obligations.StatusRegister : Prop :=
  ∀ s : State,
    s.status.toNat =
      (match s.fsm with | .idle => 0 | .active => 1 | .done => 2 | .error => 3) +
      4 * (match s.cause with | .none => 0 | .invalidInput => 1 | .sinkFailure => 2 | .protocol => 3) ∧
    s.status.toNat / 16 = 0 ∧
    ∀ rest, s.waiting = none → s.input = .readStatus :: rest →
      step s = .next { s with input := rest, statusReads := s.statusReads ++ [s.status] }

/-- Hardware reset, as the state the model starts in and as an interaction: IDLE and NONE, so STATUS reads
0x00; OUT is not touched and no byte is emitted (R28, R36, R170). The reset signal takes effect at its turn
whether the block waits for a silent sink or not, and no command is under way behind it (log 21). -/
def Obligations.HardwareResetLeaves : Prop :=
  State.reset.fsm = .idle ∧ State.reset.cause = .none ∧ State.reset.status = 0x00 ∧
  ∀ (s : State) (rest : List Input), s.input = .hardwareReset :: rest →
    s.waiting = none ∨ s.answerAt 0 = none →
    ∃ t, step s = .next t ∧ t.fsm = .idle ∧ t.cause = .none ∧ t.status = 0x00 ∧ t.out = s.out ∧
      t.input = rest ∧ t.statusReads = s.statusReads ∧ t.waiting = none

/-- A step runs the decoded instruction: when no command is under way and the host's next interaction is a code
that decodes to `i`, the step is exec of `i` with that interaction taken; a code that decodes to nothing is
refused by name; with no interaction the block holds its state; and a command that waits goes on when the sink
answers (R53, R59, R61, R166, R177; log 2, 4, 8). -/
def Obligations.StepRunsDecodedInstruction : Prop :=
  ∀ s : State,
    (∀ c rest i, s.waiting = none → s.input = .code c :: rest → decode c = .ok i →
      step s = exec i { s with input := rest }) ∧
    (∀ c rest e, s.waiting = none → s.input = .code c :: rest → decode c = .error e →
      step s = .refused (.badRecord e)) ∧
    (s.waiting = none → s.input = [] → step s = .next s) ∧
    (∀ v, s.waiting = some v → s.answerAt 0 ≠ none → step s = exec v.instr s)

/-- A state with the word of a well-formed instruction placed runs exactly it, whatever it is and whatever
the host still has to send (R59, R61, R70 to R83). -/
def Obligations.StepRunsEncodedInstruction : Prop :=
  ∀ (i : Instr) (s : State), WellFormed i → s.waiting = none →
    step { s with input := .code (encode i) :: s.input } = exec i s

/-- The invariant holds right after reset (R29, R31 to R33, R170). -/
def Obligations.InvariantAtReset : Prop := State.reset.Inv

/-- The invariant is kept by every step, from every state: the host's interactions stay its own, a waiting
command has appends to come and OUT ends in the bytes of those accepted, CAUSE is NONE exactly outside ERROR,
run rests below its cap, every slot holds (0,0,0,0) or a pixel of its hash, cache[hash(prev)] == prev once a
pixel has been consumed, and count stays within the image (R26, R28, R29, R31 to R33, R53). -/
def Obligations.InvariantKept : Prop :=
  ∀ s t : State, s.Inv → step s = .next t → t.Inv

/-- A whole encode, from any state outside ACTIVE, for any valid dimensions and any pixels: with an accepting
sink, START and then W × H PIXELs end in DONE; OUT has gained the header, a chunk stream, and the end marker;
the stream cuts into whole chunks, has 1 to 5·W·H bytes, and stands for exactly the pixels sent, in order
(R60, R84, R85, R100, R113, R143). -/
def Obligations.WholeEncode : Prop :=
  ∀ (s : State) (w h : BitVec 32) (pixels : List Pixel), s.waiting = none →
    s.fsm ≠ .active → w ≠ 0 → h ≠ 0 → pixels.length = w.toNat * h.toNat →
    s.SinkAccepts (3 * pixels.length + 1) →
    ∃ t body chunks, execAll (encodeCommands w h pixels) s = .next t ∧ t.fsm = .done ∧
      t.cause = .none ∧ t.waiting = none ∧ t.count.toNat = w.toNat * h.toNat ∧
      t.out = s.out ++ headerBytes w h ++ body ++ [0, 0, 0, 0, 0, 0, 0, 1] ∧
      1 ≤ body.length ∧ body.length ≤ 5 * (w.toNat * h.toNat) ∧
      cutChunks body = some chunks ∧ Reader.start.readAll chunks = pixels

/-! A step that waits for the sink (spec/20_memory.md R53). -/

/-- A PIXEL step with an append that fails, each one before it accepted, be it a run flush, the chunk or the
finalizer's: OUT keeps the bytes accepted before it and its own first k, and the block enters SINK_FAILURE
(R52, R113, R140, R152, R156). A k beyond the bytes offered means all of them (log 13). -/
def Obligations.PixelSinkFailure : Prop :=
  ∀ (p : Pixel) (s : State) (m k : Nat), s.waiting = none → s.fsm = .active →
    m < (pixelAppends s p).length → s.SinkAccepts m → s.answerAt m = some (.fail k) →
    ∃ t, exec (.pixel p.r p.g p.b p.a) s = .next t ∧ FaultEntered s t .sinkFailure ∧
      t.out = s.out ++ ((pixelAppends s p).take m).flatten ++ ((pixelAppends s p).getD m []).take k ∧
      t.turns = s.turns + m + 1

/-- While the sink gives no answer, the block takes no further command and nothing of it changes: a read of
STATUS gives the value from before the step, and without one only the sink's turn passes (R53; the turns are
the model's own, log 3). -/
def Obligations.WaitingTakesNoCommand : Prop :=
  ∀ (s : State) (v : Waiting), s.waiting = some v → s.answerAt 0 = none →
    (∀ rest, s.input = .readStatus :: rest →
      step s = .next
        { s with
          input := rest
          statusReads := s.statusReads ++ [s.status]
          script := s.script.tail
          turns := s.turns + 1 }) ∧
    ((∀ rest, s.input ≠ .readStatus :: rest) → (∀ rest, s.input ≠ .hardwareReset :: rest) →
      step s = .next { s with script := s.script.tail, turns := s.turns + 1 })

/-- Waiting changes nothing but the time: a step that the sink leaves without an answer once, and then goes on
with, gives what it gives when the answers come at once (R53, R61, R121). The sink's answers are scripted for
the whole step, since a free answer past the script depends on the turn. -/
def Obligations.ResumedStepIsTheSame : Prop :=
  ∀ (i : Instr) (s u : State) (m : Nat) (a : SinkAnswer) (rest : List (Option SinkAnswer)),
    s.waiting = none → s.script = List.replicate m (some .accept) ++ none :: some a :: rest →
    2 ≤ rest.length → exec i s = .next u → u.waiting ≠ none →
    ∃ t, exec i { s with script := List.replicate m (some .accept) ++ some a :: rest } = .next t ∧
      step u = .next { t with turns := t.turns + 1 }
end

