-- ==== Sys2Proof/Laws/Bits.lean ====
section
/-! SUPPORT. Bit fields as numbers: a concatenation is a sum, a field a quotient and a remainder, so that an
equality of words is linear arithmetic. -/

namespace Sys2Proof

theorem toNat_concat {n m : Nat} (x : BitVec n) (y : BitVec m) :
    (x ++ y).toNat = x.toNat * 2 ^ m + y.toNat := by
  rw [BitVec.toNat_append, ← Nat.shiftLeft_add_eq_or_of_lt y.isLt, Nat.shiftLeft_eq]

theorem toNat_field {n : Nat} (x : BitVec n) (start len : Nat) :
    (x.extractLsb' start len).toNat = x.toNat / 2 ^ start % 2 ^ len := by
  simp [BitVec.extractLsb'_toNat, Nat.shiftRight_eq_div_pow]

theorem toNat_commandWord (op : BitVec 2) (payload : BitVec 64) :
    (commandWord op payload).toNat = op.toNat * 2 ^ 64 + payload.toNat :=
  toNat_concat op payload

/-- A command word is reserved, by its number (R73). -/
theorem isReserved_iff (word : CommandWord) :
    CommandWord.isReserved word = true ↔
      word.toNat / 2 ^ 64 = 0 ∨ word.toNat / 2 ^ 64 = 3 ∨
        (word.toNat / 2 ^ 64 = 2 ∧ word.toNat / 2 ^ 32 % 2 ^ 32 ≠ 0) := by
  have lt : word.toNat < 2 ^ 66 := word.isLt
  simp only [CommandWord.isReserved, CommandWord.op, Bool.or_eq_true, Bool.and_eq_true, beq_iff_eq,
    bne_iff_ne, ne_eq, ← BitVec.toNat_inj, toNat_field]
  simp
  omega

/-- The four bytes of a 32-bit value, put together again (R54). -/
theorem concat_be32 (v : BitVec 32) :
    v.extractLsb' 24 8 ++ v.extractLsb' 16 8 ++ v.extractLsb' 8 8 ++ v.extractLsb' 0 8 = v := by
  have lt := v.isLt
  apply BitVec.eq_of_toNat_eq
  simp only [toNat_concat, toNat_field]
  omega

@[simp] theorem headerBytes_length (w h : BitVec 32) : (headerBytes w h).length = 14 := rfl

end Sys2Proof
end

