-- ==== Sys2Proof/Laws/State.lean ====
section
/-! SUPPORT. Each field after each update of the state. -/

namespace Sys2Proof.Machine

variable (s : State)

@[simp] theorem State.writeCache_cache (i : Slot) (p : Pixel) :
    (s.writeCache i p).cache = s.cache.set i.toNat p i.isLt := rfl
@[simp] theorem State.writeCache_prev (i : Slot) (p : Pixel) :
    (s.writeCache i p).prev = s.prev := rfl
@[simp] theorem State.writeCache_run (i : Slot) (p : Pixel) : (s.writeCache i p).run = s.run := rfl
@[simp] theorem State.writeCache_count (i : Slot) (p : Pixel) :
    (s.writeCache i p).count = s.count := rfl
@[simp] theorem State.writeCache_width (i : Slot) (p : Pixel) :
    (s.writeCache i p).width = s.width := rfl
@[simp] theorem State.writeCache_height (i : Slot) (p : Pixel) :
    (s.writeCache i p).height = s.height := rfl
@[simp] theorem State.writeCache_fsm (i : Slot) (p : Pixel) : (s.writeCache i p).fsm = s.fsm := rfl
@[simp] theorem State.writeCache_cause (i : Slot) (p : Pixel) :
    (s.writeCache i p).cause = s.cause := rfl
@[simp] theorem State.writeCache_out (i : Slot) (p : Pixel) : (s.writeCache i p).out = s.out := rfl
@[simp] theorem State.writeCache_input (i : Slot) (p : Pixel) :
    (s.writeCache i p).input = s.input := rfl
@[simp] theorem State.writeCache_waiting (i : Slot) (p : Pixel) :
    (s.writeCache i p).waiting = s.waiting := rfl
@[simp] theorem State.writeCache_script (i : Slot) (p : Pixel) :
    (s.writeCache i p).script = s.script := rfl
@[simp] theorem State.writeCache_turns (i : Slot) (p : Pixel) :
    (s.writeCache i p).turns = s.turns := rfl
@[simp] theorem State.writeCache_draws (i : Slot) (p : Pixel) :
    (s.writeCache i p).draws = s.draws := rfl
@[simp] theorem State.writeCache_statusReads (i : Slot) (p : Pixel) :
    (s.writeCache i p).statusReads = s.statusReads := rfl

@[simp] theorem State.setRun_cache (n : BitVec 6) : (s.setRun n).cache = s.cache := rfl
@[simp] theorem State.setRun_prev (n : BitVec 6) : (s.setRun n).prev = s.prev := rfl
@[simp] theorem State.setRun_run (n : BitVec 6) : (s.setRun n).run = n := rfl
@[simp] theorem State.setRun_count (n : BitVec 6) : (s.setRun n).count = s.count := rfl
@[simp] theorem State.setRun_width (n : BitVec 6) : (s.setRun n).width = s.width := rfl
@[simp] theorem State.setRun_height (n : BitVec 6) : (s.setRun n).height = s.height := rfl
@[simp] theorem State.setRun_fsm (n : BitVec 6) : (s.setRun n).fsm = s.fsm := rfl
@[simp] theorem State.setRun_cause (n : BitVec 6) : (s.setRun n).cause = s.cause := rfl
@[simp] theorem State.setRun_out (n : BitVec 6) : (s.setRun n).out = s.out := rfl
@[simp] theorem State.setRun_input (n : BitVec 6) : (s.setRun n).input = s.input := rfl
@[simp] theorem State.setRun_waiting (n : BitVec 6) : (s.setRun n).waiting = s.waiting := rfl
@[simp] theorem State.setRun_script (n : BitVec 6) : (s.setRun n).script = s.script := rfl
@[simp] theorem State.setRun_turns (n : BitVec 6) : (s.setRun n).turns = s.turns := rfl
@[simp] theorem State.setRun_draws (n : BitVec 6) : (s.setRun n).draws = s.draws := rfl
@[simp] theorem State.setRun_statusReads (n : BitVec 6) :
    (s.setRun n).statusReads = s.statusReads := rfl

@[simp] theorem State.setFsm_cache (f : Fsm) : (s.setFsm f).cache = s.cache := rfl
@[simp] theorem State.setFsm_prev (f : Fsm) : (s.setFsm f).prev = s.prev := rfl
@[simp] theorem State.setFsm_run (f : Fsm) : (s.setFsm f).run = s.run := rfl
@[simp] theorem State.setFsm_count (f : Fsm) : (s.setFsm f).count = s.count := rfl
@[simp] theorem State.setFsm_width (f : Fsm) : (s.setFsm f).width = s.width := rfl
@[simp] theorem State.setFsm_height (f : Fsm) : (s.setFsm f).height = s.height := rfl
@[simp] theorem State.setFsm_fsm (f : Fsm) : (s.setFsm f).fsm = f := rfl
@[simp] theorem State.setFsm_cause (f : Fsm) : (s.setFsm f).cause = s.cause := rfl
@[simp] theorem State.setFsm_out (f : Fsm) : (s.setFsm f).out = s.out := rfl
@[simp] theorem State.setFsm_input (f : Fsm) : (s.setFsm f).input = s.input := rfl
@[simp] theorem State.setFsm_waiting (f : Fsm) : (s.setFsm f).waiting = s.waiting := rfl
@[simp] theorem State.setFsm_script (f : Fsm) : (s.setFsm f).script = s.script := rfl
@[simp] theorem State.setFsm_turns (f : Fsm) : (s.setFsm f).turns = s.turns := rfl
@[simp] theorem State.setFsm_draws (f : Fsm) : (s.setFsm f).draws = s.draws := rfl
@[simp] theorem State.setFsm_statusReads (f : Fsm) : (s.setFsm f).statusReads = s.statusReads := rfl

@[simp] theorem State.clearCause_cache : (s.clearCause).cache = s.cache := rfl
@[simp] theorem State.clearCause_prev : (s.clearCause).prev = s.prev := rfl
@[simp] theorem State.clearCause_run : (s.clearCause).run = s.run := rfl
@[simp] theorem State.clearCause_count : (s.clearCause).count = s.count := rfl
@[simp] theorem State.clearCause_width : (s.clearCause).width = s.width := rfl
@[simp] theorem State.clearCause_height : (s.clearCause).height = s.height := rfl
@[simp] theorem State.clearCause_fsm : (s.clearCause).fsm = s.fsm := rfl
@[simp] theorem State.clearCause_cause : (s.clearCause).cause = .none := rfl
@[simp] theorem State.clearCause_out : (s.clearCause).out = s.out := rfl
@[simp] theorem State.clearCause_input : (s.clearCause).input = s.input := rfl
@[simp] theorem State.clearCause_waiting : (s.clearCause).waiting = s.waiting := rfl
@[simp] theorem State.clearCause_script : (s.clearCause).script = s.script := rfl
@[simp] theorem State.clearCause_turns : (s.clearCause).turns = s.turns := rfl
@[simp] theorem State.clearCause_draws : (s.clearCause).draws = s.draws := rfl
@[simp] theorem State.clearCause_statusReads : (s.clearCause).statusReads = s.statusReads := rfl

@[simp] theorem State.advance_cache (p : Pixel) : (s.advance p).cache = s.cache := rfl
@[simp] theorem State.advance_prev (p : Pixel) : (s.advance p).prev = p := rfl
@[simp] theorem State.advance_run (p : Pixel) : (s.advance p).run = s.run := rfl
@[simp] theorem State.advance_count (p : Pixel) : (s.advance p).count = s.count + 1 := rfl
@[simp] theorem State.advance_width (p : Pixel) : (s.advance p).width = s.width := rfl
@[simp] theorem State.advance_height (p : Pixel) : (s.advance p).height = s.height := rfl
@[simp] theorem State.advance_fsm (p : Pixel) : (s.advance p).fsm = s.fsm := rfl
@[simp] theorem State.advance_cause (p : Pixel) : (s.advance p).cause = s.cause := rfl
@[simp] theorem State.advance_out (p : Pixel) : (s.advance p).out = s.out := rfl
@[simp] theorem State.advance_input (p : Pixel) : (s.advance p).input = s.input := rfl
@[simp] theorem State.advance_waiting (p : Pixel) : (s.advance p).waiting = s.waiting := rfl
@[simp] theorem State.advance_script (p : Pixel) : (s.advance p).script = s.script := rfl
@[simp] theorem State.advance_turns (p : Pixel) : (s.advance p).turns = s.turns := rfl
@[simp] theorem State.advance_draws (p : Pixel) : (s.advance p).draws = s.draws := rfl
@[simp] theorem State.advance_statusReads (p : Pixel) :
    (s.advance p).statusReads = s.statusReads := rfl

@[simp] theorem State.initEncode_cache (w h : BitVec 32) :
    (s.initEncode w h).cache = Vector.replicate 64 Pixel.transparent := rfl
@[simp] theorem State.initEncode_prev (w h : BitVec 32) :
    (s.initEncode w h).prev = Pixel.opaqueBlack := rfl
@[simp] theorem State.initEncode_run (w h : BitVec 32) : (s.initEncode w h).run = 0 := rfl
@[simp] theorem State.initEncode_count (w h : BitVec 32) : (s.initEncode w h).count = 0 := rfl
@[simp] theorem State.initEncode_width (w h : BitVec 32) : (s.initEncode w h).width = w := rfl
@[simp] theorem State.initEncode_height (w h : BitVec 32) : (s.initEncode w h).height = h := rfl
@[simp] theorem State.initEncode_fsm (w h : BitVec 32) : (s.initEncode w h).fsm = s.fsm := rfl
@[simp] theorem State.initEncode_cause (w h : BitVec 32) : (s.initEncode w h).cause = s.cause := rfl
@[simp] theorem State.initEncode_out (w h : BitVec 32) : (s.initEncode w h).out = s.out := rfl
@[simp] theorem State.initEncode_input (w h : BitVec 32) : (s.initEncode w h).input = s.input := rfl
@[simp] theorem State.initEncode_waiting (w h : BitVec 32) :
    (s.initEncode w h).waiting = s.waiting := rfl
@[simp] theorem State.initEncode_script (w h : BitVec 32) :
    (s.initEncode w h).script = s.script := rfl
@[simp] theorem State.initEncode_turns (w h : BitVec 32) : (s.initEncode w h).turns = s.turns := rfl
@[simp] theorem State.initEncode_draws (w h : BitVec 32) : (s.initEncode w h).draws = s.draws := rfl
@[simp] theorem State.initEncode_statusReads (w h : BitVec 32) :
    (s.initEncode w h).statusReads = s.statusReads := rfl

@[simp] theorem State.takeInput_cache : (s.takeInput).cache = s.cache := rfl
@[simp] theorem State.takeInput_prev : (s.takeInput).prev = s.prev := rfl
@[simp] theorem State.takeInput_run : (s.takeInput).run = s.run := rfl
@[simp] theorem State.takeInput_count : (s.takeInput).count = s.count := rfl
@[simp] theorem State.takeInput_width : (s.takeInput).width = s.width := rfl
@[simp] theorem State.takeInput_height : (s.takeInput).height = s.height := rfl
@[simp] theorem State.takeInput_fsm : (s.takeInput).fsm = s.fsm := rfl
@[simp] theorem State.takeInput_cause : (s.takeInput).cause = s.cause := rfl
@[simp] theorem State.takeInput_out : (s.takeInput).out = s.out := rfl
@[simp] theorem State.takeInput_input : (s.takeInput).input = s.input.tail := rfl
@[simp] theorem State.takeInput_waiting : (s.takeInput).waiting = s.waiting := rfl
@[simp] theorem State.takeInput_script : (s.takeInput).script = s.script := rfl
@[simp] theorem State.takeInput_turns : (s.takeInput).turns = s.turns := rfl
@[simp] theorem State.takeInput_draws : (s.takeInput).draws = s.draws := rfl
@[simp] theorem State.takeInput_statusReads : (s.takeInput).statusReads = s.statusReads := rfl

@[simp] theorem State.reportStatus_cache : (s.reportStatus).cache = s.cache := rfl
@[simp] theorem State.reportStatus_prev : (s.reportStatus).prev = s.prev := rfl
@[simp] theorem State.reportStatus_run : (s.reportStatus).run = s.run := rfl
@[simp] theorem State.reportStatus_count : (s.reportStatus).count = s.count := rfl
@[simp] theorem State.reportStatus_width : (s.reportStatus).width = s.width := rfl
@[simp] theorem State.reportStatus_height : (s.reportStatus).height = s.height := rfl
@[simp] theorem State.reportStatus_fsm : (s.reportStatus).fsm = s.fsm := rfl
@[simp] theorem State.reportStatus_cause : (s.reportStatus).cause = s.cause := rfl
@[simp] theorem State.reportStatus_out : (s.reportStatus).out = s.out := rfl
@[simp] theorem State.reportStatus_input : (s.reportStatus).input = s.input := rfl
@[simp] theorem State.reportStatus_waiting : (s.reportStatus).waiting = s.waiting := rfl
@[simp] theorem State.reportStatus_script : (s.reportStatus).script = s.script := rfl
@[simp] theorem State.reportStatus_turns : (s.reportStatus).turns = s.turns := rfl
@[simp] theorem State.reportStatus_draws : (s.reportStatus).draws = s.draws := rfl
@[simp] theorem State.reportStatus_statusReads :
    (s.reportStatus).statusReads = s.statusReads ++ [s.status] := rfl

@[simp] theorem State.placeTableWord_cache (nbits w : Nat) :
    (s.placeTableWord nbits w).cache = s.cache := rfl
@[simp] theorem State.placeTableWord_prev (nbits w : Nat) :
    (s.placeTableWord nbits w).prev = s.prev := rfl
@[simp] theorem State.placeTableWord_run (nbits w : Nat) :
    (s.placeTableWord nbits w).run = s.run := rfl
@[simp] theorem State.placeTableWord_count (nbits w : Nat) :
    (s.placeTableWord nbits w).count = s.count := rfl
@[simp] theorem State.placeTableWord_width (nbits w : Nat) :
    (s.placeTableWord nbits w).width = s.width := rfl
@[simp] theorem State.placeTableWord_height (nbits w : Nat) :
    (s.placeTableWord nbits w).height = s.height := rfl
@[simp] theorem State.placeTableWord_fsm (nbits w : Nat) :
    (s.placeTableWord nbits w).fsm = s.fsm := rfl
@[simp] theorem State.placeTableWord_cause (nbits w : Nat) :
    (s.placeTableWord nbits w).cause = s.cause := rfl
@[simp] theorem State.placeTableWord_out (nbits w : Nat) :
    (s.placeTableWord nbits w).out = s.out := rfl
@[simp] theorem State.placeTableWord_input (nbits w : Nat) :
    (s.placeTableWord nbits w).input = .code (tableWordCode nbits w) :: s.input := rfl
@[simp] theorem State.placeTableWord_waiting (nbits w : Nat) :
    (s.placeTableWord nbits w).waiting = none := rfl
@[simp] theorem State.placeTableWord_script (nbits w : Nat) :
    (s.placeTableWord nbits w).script = s.script := rfl
@[simp] theorem State.placeTableWord_turns (nbits w : Nat) :
    (s.placeTableWord nbits w).turns = s.turns := rfl
@[simp] theorem State.placeTableWord_draws (nbits w : Nat) :
    (s.placeTableWord nbits w).draws = s.draws := rfl
@[simp] theorem State.placeTableWord_statusReads (nbits w : Nat) :
    (s.placeTableWord nbits w).statusReads = s.statusReads := rfl

@[simp] theorem State.takeAnswer_cache : (s.takeAnswer).cache = s.cache := rfl
@[simp] theorem State.takeAnswer_prev : (s.takeAnswer).prev = s.prev := rfl
@[simp] theorem State.takeAnswer_run : (s.takeAnswer).run = s.run := rfl
@[simp] theorem State.takeAnswer_count : (s.takeAnswer).count = s.count := rfl
@[simp] theorem State.takeAnswer_width : (s.takeAnswer).width = s.width := rfl
@[simp] theorem State.takeAnswer_height : (s.takeAnswer).height = s.height := rfl
@[simp] theorem State.takeAnswer_fsm : (s.takeAnswer).fsm = s.fsm := rfl
@[simp] theorem State.takeAnswer_cause : (s.takeAnswer).cause = s.cause := rfl
@[simp] theorem State.takeAnswer_out : (s.takeAnswer).out = s.out := rfl
@[simp] theorem State.takeAnswer_input : (s.takeAnswer).input = s.input := rfl
@[simp] theorem State.takeAnswer_waiting : (s.takeAnswer).waiting = s.waiting := rfl
@[simp] theorem State.takeAnswer_script : (s.takeAnswer).script = s.script.tail := rfl
@[simp] theorem State.takeAnswer_turns : (s.takeAnswer).turns = s.turns + 1 := rfl
@[simp] theorem State.takeAnswer_draws : (s.takeAnswer).draws = s.draws := rfl
@[simp] theorem State.takeAnswer_statusReads : (s.takeAnswer).statusReads = s.statusReads := rfl

@[simp] theorem State.append_cache (bs : List Byte) : (s.append bs).cache = s.cache := rfl
@[simp] theorem State.append_prev (bs : List Byte) : (s.append bs).prev = s.prev := rfl
@[simp] theorem State.append_run (bs : List Byte) : (s.append bs).run = s.run := rfl
@[simp] theorem State.append_count (bs : List Byte) : (s.append bs).count = s.count := rfl
@[simp] theorem State.append_width (bs : List Byte) : (s.append bs).width = s.width := rfl
@[simp] theorem State.append_height (bs : List Byte) : (s.append bs).height = s.height := rfl
@[simp] theorem State.append_fsm (bs : List Byte) : (s.append bs).fsm = s.fsm := rfl
@[simp] theorem State.append_cause (bs : List Byte) : (s.append bs).cause = s.cause := rfl
@[simp] theorem State.append_out (bs : List Byte) : (s.append bs).out = s.out ++ bs := rfl
@[simp] theorem State.append_input (bs : List Byte) : (s.append bs).input = s.input := rfl
@[simp] theorem State.append_waiting (bs : List Byte) : (s.append bs).waiting = s.waiting := rfl
@[simp] theorem State.append_script (bs : List Byte) : (s.append bs).script = s.script := rfl
@[simp] theorem State.append_turns (bs : List Byte) : (s.append bs).turns = s.turns := rfl
@[simp] theorem State.append_draws (bs : List Byte) : (s.append bs).draws = s.draws := rfl
@[simp] theorem State.append_statusReads (bs : List Byte) :
    (s.append bs).statusReads = s.statusReads := rfl

@[simp] theorem State.raise_cache (f : FaultInfo) :
    (s.raise f).cache = Config.freeCache s.draws := rfl
@[simp] theorem State.raise_prev (f : FaultInfo) : (s.raise f).prev = Config.freePrev s.draws := rfl
@[simp] theorem State.raise_run (f : FaultInfo) : (s.raise f).run = Config.freeRun s.draws := rfl
@[simp] theorem State.raise_count (f : FaultInfo) :
    (s.raise f).count = Config.freeCount s.draws := rfl
@[simp] theorem State.raise_width (f : FaultInfo) : (s.raise f).width = s.width := rfl
@[simp] theorem State.raise_height (f : FaultInfo) : (s.raise f).height = s.height := rfl
@[simp] theorem State.raise_fsm (f : FaultInfo) : (s.raise f).fsm = .error := rfl
@[simp] theorem State.raise_cause (f : FaultInfo) : (s.raise f).cause = f.code := rfl
@[simp] theorem State.raise_out (f : FaultInfo) : (s.raise f).out = s.out := rfl
@[simp] theorem State.raise_input (f : FaultInfo) : (s.raise f).input = s.input := rfl
@[simp] theorem State.raise_waiting (f : FaultInfo) : (s.raise f).waiting = s.waiting := rfl
@[simp] theorem State.raise_script (f : FaultInfo) : (s.raise f).script = s.script := rfl
@[simp] theorem State.raise_turns (f : FaultInfo) : (s.raise f).turns = s.turns := rfl
@[simp] theorem State.raise_draws (f : FaultInfo) : (s.raise f).draws = s.draws + 1 := rfl
@[simp] theorem State.raise_statusReads (f : FaultInfo) :
    (s.raise f).statusReads = s.statusReads := rfl

@[simp] theorem State.hardwareReset_cache :
    (s.hardwareReset).cache = Config.freeCache s.draws := rfl
@[simp] theorem State.hardwareReset_prev : (s.hardwareReset).prev = Config.freePrev s.draws := rfl
@[simp] theorem State.hardwareReset_run : (s.hardwareReset).run = Config.freeRun s.draws := rfl
@[simp] theorem State.hardwareReset_count :
    (s.hardwareReset).count = Config.freeCount s.draws := rfl
@[simp] theorem State.hardwareReset_width :
    (s.hardwareReset).width = Config.freeWidth s.draws := rfl
@[simp] theorem State.hardwareReset_height :
    (s.hardwareReset).height = Config.freeHeight s.draws := rfl
@[simp] theorem State.hardwareReset_fsm : (s.hardwareReset).fsm = .idle := rfl
@[simp] theorem State.hardwareReset_cause : (s.hardwareReset).cause = .none := rfl
@[simp] theorem State.hardwareReset_out : (s.hardwareReset).out = s.out := rfl
@[simp] theorem State.hardwareReset_input : (s.hardwareReset).input = s.input := rfl
@[simp] theorem State.hardwareReset_waiting : (s.hardwareReset).waiting = none := rfl
@[simp] theorem State.hardwareReset_script : (s.hardwareReset).script = s.script := rfl
@[simp] theorem State.hardwareReset_turns : (s.hardwareReset).turns = s.turns := rfl
@[simp] theorem State.hardwareReset_draws : (s.hardwareReset).draws = s.draws + 1 := rfl
@[simp] theorem State.hardwareReset_statusReads :
    (s.hardwareReset).statusReads = s.statusReads := rfl

@[simp] theorem State.useGrant_cache : (s.useGrant).cache = s.cache := rfl
@[simp] theorem State.useGrant_prev : (s.useGrant).prev = s.prev := rfl
@[simp] theorem State.useGrant_run : (s.useGrant).run = s.run := rfl
@[simp] theorem State.useGrant_count : (s.useGrant).count = s.count := rfl
@[simp] theorem State.useGrant_width : (s.useGrant).width = s.width := rfl
@[simp] theorem State.useGrant_height : (s.useGrant).height = s.height := rfl
@[simp] theorem State.useGrant_fsm : (s.useGrant).fsm = s.fsm := rfl
@[simp] theorem State.useGrant_cause : (s.useGrant).cause = s.cause := rfl
@[simp] theorem State.useGrant_out : (s.useGrant).out = s.out := rfl
@[simp] theorem State.useGrant_input : (s.useGrant).input = s.input := rfl
@[simp] theorem State.useGrant_waiting :
    (s.useGrant).waiting = s.waiting.map fun w => { w with accepted := w.accepted - 1 } := rfl
@[simp] theorem State.useGrant_script : (s.useGrant).script = s.script := rfl
@[simp] theorem State.useGrant_turns : (s.useGrant).turns = s.turns := rfl
@[simp] theorem State.useGrant_draws : (s.useGrant).draws = s.draws := rfl
@[simp] theorem State.useGrant_statusReads : (s.useGrant).statusReads = s.statusReads := rfl

@[simp] theorem State.settle_cache : (s.settle).cache = s.cache := rfl
@[simp] theorem State.settle_prev : (s.settle).prev = s.prev := rfl
@[simp] theorem State.settle_run : (s.settle).run = s.run := rfl
@[simp] theorem State.settle_count : (s.settle).count = s.count := rfl
@[simp] theorem State.settle_width : (s.settle).width = s.width := rfl
@[simp] theorem State.settle_height : (s.settle).height = s.height := rfl
@[simp] theorem State.settle_fsm : (s.settle).fsm = s.fsm := rfl
@[simp] theorem State.settle_cause : (s.settle).cause = s.cause := rfl
@[simp] theorem State.settle_out : (s.settle).out = s.out := rfl
@[simp] theorem State.settle_input : (s.settle).input = s.input := rfl
@[simp] theorem State.settle_waiting : (s.settle).waiting = none := rfl
@[simp] theorem State.settle_script : (s.settle).script = s.script := rfl
@[simp] theorem State.settle_turns : (s.settle).turns = s.turns := rfl
@[simp] theorem State.settle_draws : (s.settle).draws = s.draws := rfl
@[simp] theorem State.settle_statusReads : (s.settle).statusReads = s.statusReads := rfl

@[simp] theorem State.suspend_cache (i : Instr) (mid : State) :
    (s.suspend i mid).cache = s.cache := rfl
@[simp] theorem State.suspend_prev (i : Instr) (mid : State) :
    (s.suspend i mid).prev = s.prev := rfl
@[simp] theorem State.suspend_run (i : Instr) (mid : State) : (s.suspend i mid).run = s.run := rfl
@[simp] theorem State.suspend_count (i : Instr) (mid : State) :
    (s.suspend i mid).count = s.count := rfl
@[simp] theorem State.suspend_width (i : Instr) (mid : State) :
    (s.suspend i mid).width = s.width := rfl
@[simp] theorem State.suspend_height (i : Instr) (mid : State) :
    (s.suspend i mid).height = s.height := rfl
@[simp] theorem State.suspend_fsm (i : Instr) (mid : State) : (s.suspend i mid).fsm = s.fsm := rfl
@[simp] theorem State.suspend_cause (i : Instr) (mid : State) :
    (s.suspend i mid).cause = s.cause := rfl
@[simp] theorem State.suspend_out (i : Instr) (mid : State) : (s.suspend i mid).out = mid.out := rfl
@[simp] theorem State.suspend_input (i : Instr) (mid : State) :
    (s.suspend i mid).input = s.input := rfl
@[simp] theorem State.suspend_waiting (i : Instr) (mid : State) :
    (s.suspend i mid).waiting = some { instr := i, accepted := s.granted + (mid.turns - s.turns) } := rfl
@[simp] theorem State.suspend_script (i : Instr) (mid : State) :
    (s.suspend i mid).script = mid.script.tail := rfl
@[simp] theorem State.suspend_turns (i : Instr) (mid : State) :
    (s.suspend i mid).turns = mid.turns + 1 := rfl
@[simp] theorem State.suspend_draws (i : Instr) (mid : State) :
    (s.suspend i mid).draws = s.draws := rfl
@[simp] theorem State.suspend_statusReads (i : Instr) (mid : State) :
    (s.suspend i mid).statusReads = s.statusReads := rfl

@[simp] theorem State.writeCache_answerAt (i : Slot) (p : Pixel) (k : Nat) :
    (s.writeCache i p).answerAt k = s.answerAt k := rfl
@[simp] theorem State.writeCache_granted (i : Slot) (p : Pixel) :
    (s.writeCache i p).granted = s.granted := rfl
@[simp] theorem State.setRun_answerAt (n : BitVec 6) (k : Nat) :
    (s.setRun n).answerAt k = s.answerAt k := rfl
@[simp] theorem State.setRun_granted (n : BitVec 6) : (s.setRun n).granted = s.granted := rfl
@[simp] theorem State.setRun_readCache (n : BitVec 6) (j : Slot) :
    (s.setRun n).readCache j = s.readCache j := rfl
@[simp] theorem State.setFsm_answerAt (f : Fsm) (k : Nat) :
    (s.setFsm f).answerAt k = s.answerAt k := rfl
@[simp] theorem State.setFsm_granted (f : Fsm) : (s.setFsm f).granted = s.granted := rfl
@[simp] theorem State.setFsm_readCache (f : Fsm) (j : Slot) :
    (s.setFsm f).readCache j = s.readCache j := rfl
@[simp] theorem State.clearCause_answerAt (k : Nat) :
    (s.clearCause).answerAt k = s.answerAt k := rfl
@[simp] theorem State.clearCause_granted : (s.clearCause).granted = s.granted := rfl
@[simp] theorem State.clearCause_readCache (j : Slot) :
    (s.clearCause).readCache j = s.readCache j := rfl
@[simp] theorem State.advance_answerAt (p : Pixel) (k : Nat) :
    (s.advance p).answerAt k = s.answerAt k := rfl
@[simp] theorem State.advance_granted (p : Pixel) : (s.advance p).granted = s.granted := rfl
@[simp] theorem State.advance_readCache (p : Pixel) (j : Slot) :
    (s.advance p).readCache j = s.readCache j := rfl
@[simp] theorem State.initEncode_answerAt (w h : BitVec 32) (k : Nat) :
    (s.initEncode w h).answerAt k = s.answerAt k := rfl
@[simp] theorem State.initEncode_granted (w h : BitVec 32) :
    (s.initEncode w h).granted = s.granted := rfl
@[simp] theorem State.takeInput_answerAt (k : Nat) : (s.takeInput).answerAt k = s.answerAt k := rfl
@[simp] theorem State.takeInput_granted : (s.takeInput).granted = s.granted := rfl
@[simp] theorem State.takeInput_readCache (j : Slot) :
    (s.takeInput).readCache j = s.readCache j := rfl
@[simp] theorem State.reportStatus_answerAt (k : Nat) :
    (s.reportStatus).answerAt k = s.answerAt k := rfl
@[simp] theorem State.reportStatus_granted : (s.reportStatus).granted = s.granted := rfl
@[simp] theorem State.reportStatus_readCache (j : Slot) :
    (s.reportStatus).readCache j = s.readCache j := rfl
@[simp] theorem State.placeTableWord_answerAt (nbits w : Nat) (k : Nat) :
    (s.placeTableWord nbits w).answerAt k = s.answerAt k := rfl
@[simp] theorem State.placeTableWord_readCache (nbits w : Nat) (j : Slot) :
    (s.placeTableWord nbits w).readCache j = s.readCache j := rfl
@[simp] theorem State.takeAnswer_granted : (s.takeAnswer).granted = s.granted := rfl
@[simp] theorem State.takeAnswer_readCache (j : Slot) :
    (s.takeAnswer).readCache j = s.readCache j := rfl
@[simp] theorem State.append_answerAt (bs : List Byte) (k : Nat) :
    (s.append bs).answerAt k = s.answerAt k := rfl
@[simp] theorem State.append_granted (bs : List Byte) : (s.append bs).granted = s.granted := rfl
@[simp] theorem State.append_readCache (bs : List Byte) (j : Slot) :
    (s.append bs).readCache j = s.readCache j := rfl
@[simp] theorem State.raise_answerAt (f : FaultInfo) (k : Nat) :
    (s.raise f).answerAt k = s.answerAt k := rfl
@[simp] theorem State.raise_granted (f : FaultInfo) : (s.raise f).granted = s.granted := rfl
@[simp] theorem State.hardwareReset_answerAt (k : Nat) :
    (s.hardwareReset).answerAt k = s.answerAt k := rfl
@[simp] theorem State.useGrant_answerAt (k : Nat) : (s.useGrant).answerAt k = s.answerAt k := rfl
@[simp] theorem State.useGrant_readCache (j : Slot) :
    (s.useGrant).readCache j = s.readCache j := rfl
@[simp] theorem State.settle_answerAt (k : Nat) : (s.settle).answerAt k = s.answerAt k := rfl
@[simp] theorem State.settle_readCache (j : Slot) : (s.settle).readCache j = s.readCache j := rfl
@[simp] theorem State.suspend_readCache (i : Instr) (mid : State) (j : Slot) :
    (s.suspend i mid).readCache j = s.readCache j := rfl

end Sys2Proof.Machine
end

