-- ==== Sys2Proof/Laws/Ops.lean ====
section
/-! SUPPORT. Once for each shared operation, everything it can do: the cache, the cells of OUT, the order of
effects in a step, and the append. -/

namespace Sys2Proof.Machine

/-! The cache (R22). -/

@[simp] theorem State.readCache_writeCache_same (s : State) (i : Slot) (p : Pixel) :
    (s.writeCache i p).readCache i = p := by
  simp [State.readCache]

theorem State.readCache_writeCache_other (s : State) {i j : Slot} (p : Pixel) (h : i ≠ j) :
    (s.writeCache i p).readCache j = s.readCache j := by
  have : i.toNat ≠ j.toNat := fun e => h (BitVec.eq_of_toNat_eq e)
  simp [State.readCache, this]

theorem State.readCache_initEncode (s : State) (w h : BitVec 32) (i : Slot) :
    (s.initEncode w h).readCache i = Pixel.transparent := by
  simp [State.readCache]

/-- Putting back what a slot holds changes nothing (R120). -/
theorem State.writeCache_readCache (s : State) (i : Slot) : s.writeCache i (s.readCache i) = s := by
  simp [State.writeCache, State.readCache, Vector.set_getElem_self]

/-! OUT as cells (R51). -/

/-- The cells of OUT have the canonical form in every state, so every operation keeps it. -/
theorem State.outCells_wf (s : State) : Memory.wf s.outCells = true := by
  simp [Memory.wf, State.outCells, List.map_map, Function.comp_def, List.range_eq_range']

theorem State.outCells_length (s : State) : s.outCells.length = s.out.length := by
  simp [State.outCells]

/-- An append leaves every byte already accepted as it was (R51). -/
theorem State.outByte_append_before (s : State) (bs : List Byte) {a : Nat} (h : a < s.out.length) :
    (s.append bs).outByte a = s.outByte a := by
  simp [State.outByte, List.getElem?_append_left h]

/-- The bytes of an append stand from the old end of OUT on (R11, R52). -/
theorem State.outByte_append_at (s : State) (bs : List Byte) (k : Nat) :
    (s.append bs).outByte (s.out.length + k) = bs[k]? := by
  simp [State.outByte, List.getElem?_append_right]

/-! The order of effects in one step (R12). -/

@[simp] theorem Progress.goOn_andThen (s : State) (f : State → Progress) :
    (Progress.goOn s).andThen f = f s := rfl

@[simp] theorem Progress.raised_andThen (s : State) (e : FaultInfo) (f : State → Progress) :
    (Progress.raised s e).andThen f = .raised s e := rfl

@[simp] theorem Progress.stuck_andThen (s : State) (f : State → Progress) :
    (Progress.stuck s).andThen f = .stuck s := rfl

@[simp] theorem Progress.goOn_andDo (s : State) (w : State → State) :
    (Progress.goOn s).andDo w = .goOn (w s) := rfl

@[simp] theorem Progress.raised_andDo (s : State) (e : FaultInfo) (w : State → State) :
    (Progress.raised s e).andDo w = .raised s e := rfl

@[simp] theorem Progress.stuck_andDo (s : State) (w : State → State) :
    (Progress.stuck s).andDo w = .stuck s := rfl

@[simp] theorem Progress.finish_goOn (t : State) (i : Instr) (s : State) :
    (Progress.goOn t).finish i s = .next t.settle := rfl

@[simp] theorem Progress.finish_raised (t : State) (e : FaultInfo) (i : Instr) (s : State) :
    (Progress.raised t e).finish i s = .next (t.raise e).settle := rfl

@[simp] theorem Progress.finish_stuck (t : State) (i : Instr) (s : State) :
    (Progress.stuck t).finish i s = .next (s.suspend i t) := rfl

/-! Waiting for the sink (R53). -/

@[simp] theorem State.granted_of_none {s : State} (h : s.waiting = none) : s.granted = 0 := by
  simp [State.granted, h]

@[simp] theorem State.settle_granted (s : State) : s.settle.granted = 0 := rfl

@[simp] theorem State.useGrant_granted (s : State) : s.useGrant.granted = s.granted - 1 := by
  cases h : s.waiting <;> simp [State.granted, h]

theorem State.settle_of_none {s : State} (h : s.waiting = none) : s.settle = s := by
  cases s; cases h; rfl

/-! The append (R52). -/

@[simp] theorem State.takeAnswer_answerAt (s : State) (k : Nat) :
    s.takeAnswer.answerAt k = s.answerAt (k + 1) := by
  cases h : s.script with
  | nil => simp [State.answerAt, h, Nat.add_assoc, Nat.add_comm 1 k]
  | cons a as => simp [State.answerAt, h, Nat.add_assoc, Nat.add_comm 1 k]

/-- An append the sink has accepted before the step was suspended is not offered again. -/
theorem emit_of_granted {bs : List Byte} {s : State} (h : 0 < s.granted) :
    emit bs s = .goOn s.useGrant := if_pos h

theorem emit_of_accept {bs : List Byte} {s : State} (g : s.granted = 0)
    (h : s.answerAt 0 = some .accept) : emit bs s = .goOn (s.takeAnswer.append bs) := by
  simp [emit, g, h]

theorem emit_of_fail {bs : List Byte} {s : State} {k : Nat} (g : s.granted = 0)
    (h : s.answerAt 0 = some (.fail k)) :
    emit bs s = .raised (s.takeAnswer.append (bs.take k)) (.sinkFailure k) := by
  simp [emit, g, h]

theorem emit_of_silent {bs : List Byte} {s : State} (g : s.granted = 0) (h : s.answerAt 0 = none) :
    emit bs s = .stuck s := by
  simp [emit, g, h]

/-- Everything an append can do: passed by since the sink has accepted it before; accepted whole; failed after
some of its bytes; or not answered yet (R52, R53). -/
theorem emit_cases (bs : List Byte) (s : State) :
    (0 < s.granted ∧ emit bs s = .goOn s.useGrant) ∨
    (s.granted = 0 ∧ s.answerAt 0 = some .accept ∧ emit bs s = .goOn (s.takeAnswer.append bs)) ∨
    (s.granted = 0 ∧ ∃ k, s.answerAt 0 = some (.fail k) ∧
      emit bs s = .raised (s.takeAnswer.append (bs.take k)) (.sinkFailure k)) ∨
    (s.granted = 0 ∧ s.answerAt 0 = none ∧ emit bs s = .stuck s) := by
  rcases Nat.eq_zero_or_pos s.granted with g | g
  · match h : s.answerAt 0 with
    | some .accept => exact .inr (.inl ⟨g, rfl, emit_of_accept g h⟩)
    | some (.fail k) => exact .inr (.inr (.inl ⟨g, k, rfl, emit_of_fail g h⟩))
    | none => exact .inr (.inr (.inr ⟨g, rfl, emit_of_silent g h⟩))
  · exact .inl ⟨g, emit_of_granted g⟩

end Sys2Proof.Machine
end

