-- ==== Sys2Proof/Laws/Emission.lean ====
section
/-! SUPPORT. What the emitting part of a step can do, said once: it makes the appends `ps`, each a list of bytes,
and reaches `t`, or the sink fails one of them, or has not answered it yet. It composes along a step, and each
procedure of the packer has it. The first `granted` appends of a resumed step are not offered again (R53). -/

namespace Sys2Proof.Machine

/-- `t` is `s` after `n` answered turns of the sink that appended `bs` in all, whatever else of the block has been
written: the dimensions and the host's side are as they were. -/
def Extends (s : State) (n : Nat) (bs : List Byte) (t : State) : Prop :=
  t.out = s.out ++ bs ∧ t.script = s.script.drop n ∧ t.turns = s.turns + n ∧
    t.width = s.width ∧ t.height = s.height ∧ t.input = s.input ∧
    t.statusReads = s.statusReads ∧ t.draws = s.draws

theorem Extends.refl (s : State) : Extends s 0 [] s := by simp [Extends]

theorem Extends.trans {s t u : State} {n m : Nat} {bs cs : List Byte} (h : Extends s n bs t)
    (k : Extends t m cs u) : Extends s (n + m) (bs ++ cs) u := by
  obtain ⟨h1, h2, h3, h4, h5, h6, h7, h8⟩ := h
  obtain ⟨k1, k2, k3, k4, k5, k6, k7, k8⟩ := k
  refine ⟨by simp [*], by simp [*], by omega, ?_, ?_, ?_, ?_, ?_⟩ <;> simp [*]

theorem Extends.answerAt {s t : State} {n : Nat} {bs : List Byte} (h : Extends s n bs t) (k : Nat) :
    t.answerAt k = s.answerAt (n + k) := by
  obtain ⟨-, h2, h3, -⟩ := h
  simp [State.answerAt, h2, h3, Nat.add_assoc]

theorem State.SinkAccepts.mono {s : State} {n m : Nat} (h : s.SinkAccepts n) (le : m ≤ n) :
    s.SinkAccepts m := fun k lt => h k (by omega)

theorem State.sinkAccepts_zero (s : State) : s.SinkAccepts 0 := fun _ h => absurd h (Nat.not_lt_zero _)

theorem Extends.sinkAccepts_iff {s t : State} {n : Nat} {bs : List Byte} (h : Extends s n bs t)
    (m : Nat) : s.SinkAccepts (n + m) ↔ s.SinkAccepts n ∧ t.SinkAccepts m := by
  constructor
  · exact fun a => ⟨a.mono (by omega), fun k lt => by rw [h.answerAt]; exact a _ (by omega)⟩
  · rintro ⟨a, b⟩ k lt
    by_cases c : k < n
    · exact a k c
    · obtain ⟨j, rfl⟩ : ∃ j, k = n + j := ⟨k - n, by omega⟩
      rw [← h.answerAt]; exact b j (by omega)

/-- The three ways an emitting part of a step can end (R52, R53): every append accepted and `t` reached; or the
first one not accepted failed, leaving its first `k` bytes behind those before it, and raised SinkFailure; or
the first one not accepted has no answer yet. -/
def Progress.Emits (p : Progress) (s : State) (ps : List (List Byte)) (t : State) : Prop :=
  Extends s (ps.length - s.granted) (ps.drop s.granted).flatten t ∧ t.granted = s.granted - ps.length ∧
  ((s.SinkAccepts (ps.length - s.granted) ∧ p = .goOn t) ∨
   (∃ m k u, m < ps.length - s.granted ∧ s.SinkAccepts m ∧ s.answerAt m = some (.fail k) ∧
      Extends s (m + 1) (((ps.drop s.granted).take m).flatten ++ (ps.getD (s.granted + m) []).take k) u ∧
      p = .raised u (.sinkFailure k)) ∨
   (∃ m u, m < ps.length - s.granted ∧ s.SinkAccepts m ∧ s.answerAt m = none ∧
      Extends s m ((ps.drop s.granted).take m).flatten u ∧ p = .stuck u))

theorem Progress.Emits.goOn (s : State) : (Progress.goOn s).Emits s [] s :=
  ⟨by simpa using Extends.refl s, by simp, .inl ⟨by simpa using s.sinkAccepts_zero, rfl⟩⟩

/-- Where an append that goes on leads: to the next turn of the sink, or past an append accepted before. -/
def State.appended (s : State) (bs : List Byte) : State :=
  if 0 < s.granted then s.useGrant else s.takeAnswer.append bs

theorem State.appended_of_new {s : State} (h : s.granted = 0) (bs : List Byte) :
    s.appended bs = s.takeAnswer.append bs := if_neg (by omega)

theorem State.appended_of_granted {s : State} (h : 0 < s.granted) (bs : List Byte) :
    s.appended bs = s.useGrant := if_pos h

@[simp] theorem State.appended_cache (s : State) (bs : List Byte) : (s.appended bs).cache = s.cache := by
  unfold State.appended; split <;> rfl

@[simp] theorem State.appended_prev (s : State) (bs : List Byte) : (s.appended bs).prev = s.prev := by
  unfold State.appended; split <;> rfl

@[simp] theorem State.appended_run (s : State) (bs : List Byte) : (s.appended bs).run = s.run := by
  unfold State.appended; split <;> rfl

@[simp] theorem State.appended_count (s : State) (bs : List Byte) : (s.appended bs).count = s.count := by
  unfold State.appended; split <;> rfl

@[simp] theorem State.appended_width (s : State) (bs : List Byte) : (s.appended bs).width = s.width := by
  unfold State.appended; split <;> rfl

@[simp] theorem State.appended_height (s : State) (bs : List Byte) : (s.appended bs).height = s.height := by
  unfold State.appended; split <;> rfl

@[simp] theorem State.appended_fsm (s : State) (bs : List Byte) : (s.appended bs).fsm = s.fsm := by
  unfold State.appended; split <;> rfl

@[simp] theorem State.appended_cause (s : State) (bs : List Byte) : (s.appended bs).cause = s.cause := by
  unfold State.appended; split <;> rfl

@[simp] theorem State.appended_cacheHit (s : State) (bs : List Byte) (p : Pixel) :
    (s.appended bs).cacheHit p = s.cacheHit p := by
  unfold State.appended; split <;> rfl

theorem State.appended_waiting {s : State} (h : s.waiting = none) (bs : List Byte) :
    (s.appended bs).waiting = none := by
  rw [State.appended_of_new (State.granted_of_none h)]; exact h

/-- One append (R52). -/
theorem emit_emits (bs : List Byte) (s : State) : (emit bs s).Emits s [bs] (s.appended bs) := by
  obtain ⟨g, e⟩ | ⟨g, h, e⟩ | ⟨g, k, h, e⟩ | ⟨g, h, e⟩ := emit_cases bs s
  · have z : [bs].length - s.granted = 0 := by simp; omega
    have d : [bs].drop s.granted = [] := List.drop_eq_nil_iff.2 g
    rw [Progress.Emits, z, d, State.appended_of_granted g]
    exact ⟨by simp [Extends], by simp, .inl ⟨s.sinkAccepts_zero, e⟩⟩
  all_goals
    rw [Progress.Emits, State.appended_of_new g, g]
    refine ⟨by simp [Extends], by simp [g], ?_⟩
  · exact .inl ⟨fun k lt => by obtain rfl : k = 0 := by simp at lt; omega
                               exact h, e⟩
  · exact .inr (.inl ⟨0, k, _, by simp, s.sinkAccepts_zero, h, by simp [Extends], e⟩)
  · exact .inr (.inr ⟨0, s, by simp, s.sinkAccepts_zero, h, by simp [Extends], e⟩)

/-- Emitting parts of a step one after the other (R12, R61). -/
theorem Progress.Emits.andThen {p : Progress} {f : State → Progress} {s t u : State}
    {ps qs : List (List Byte)} (h : p.Emits s ps t) (k : (f t).Emits t qs u) :
    (p.andThen f).Emits s (ps ++ qs) u := by
  obtain ⟨ext, gt, hp⟩ := h
  obtain ⟨ext', gu, kp⟩ := k
  rw [gt] at ext' gu kp
  have len : (ps ++ qs).length - s.granted = (ps.length - s.granted) + (qs.length - (s.granted - ps.length)) := by
    simp only [List.length_append]; omega
  have first : ∀ m, m ≤ ps.length - s.granted →
      ((ps ++ qs).drop s.granted).take m = (ps.drop s.granted).take m := fun m le => by
    rw [List.drop_append, List.take_append_of_le_length (by simpa using le)]
  have later : ∀ m, ((ps ++ qs).drop s.granted).take (ps.length - s.granted + m) =
      ps.drop s.granted ++ (qs.drop (s.granted - ps.length)).take m := fun m => by
    rw [List.drop_append, List.take_append, List.take_of_length_le (by simp)]
    simp
  rw [Progress.Emits, len]
  refine ⟨?_, by simp only [List.length_append]; omega, ?_⟩
  · rw [List.drop_append, List.flatten_append]; exact ext.trans ext'
  obtain ⟨acc, rfl⟩ | ⟨j, a, v, lt, acc, ans, e, rfl⟩ | ⟨j, v, lt, acc, ans, e, rfl⟩ := hp
  · simp only [Progress.goOn_andThen]
    obtain ⟨acc', e'⟩ | ⟨j, a, v, lt, acc', ans, e, e'⟩ | ⟨j, v, lt, acc', ans, e, e'⟩ := kp
    · exact .inl ⟨(ext.sinkAccepts_iff _).2 ⟨acc, acc'⟩, e'⟩
    · refine .inr (.inl ⟨ps.length - s.granted + j, a, v, by omega, (ext.sinkAccepts_iff j).2 ⟨acc, acc'⟩,
        by rw [← ext.answerAt]; exact ans, ?_, e'⟩)
      have at_ : (ps ++ qs).getD (s.granted + (ps.length - s.granted + j)) [] =
          qs.getD (s.granted - ps.length + j) [] := by
        rw [List.getD_append_right _ _ _ _ (by omega)]; congr 1; omega
      rw [later, List.flatten_append, at_, List.append_assoc]
      exact ext.trans e
    · refine .inr (.inr ⟨ps.length - s.granted + j, v, by omega, (ext.sinkAccepts_iff j).2 ⟨acc, acc'⟩,
        by rw [← ext.answerAt]; exact ans, ?_, e'⟩)
      rw [later, List.flatten_append]
      exact ext.trans e
  · refine .inr (.inl ⟨j, a, v, by omega, acc, ans, ?_, rfl⟩)
    rw [first j (by omega), List.getD_append _ _ _ _ (by omega)]
    exact e
  · refine .inr (.inr ⟨j, v, by omega, acc, ans, ?_, rfl⟩)
    rw [first j (by omega)]
    exact e

/-- State writes of the block behind an emitting part (R12). -/
theorem Progress.Emits.andDo {p : Progress} {w : State → State} {s t : State}
    {ps : List (List Byte)} (h : p.Emits s ps t) (k : Extends t 0 [] (w t))
    (g : (w t).granted = t.granted) : (p.andDo w).Emits s ps (w t) := by
  obtain ⟨ext, gt, hp⟩ := h
  refine ⟨by simpa using ext.trans k, g.trans gt, ?_⟩
  obtain ⟨acc, rfl⟩ | ⟨j, a, v, lt, acc, ans, e, rfl⟩ | ⟨j, v, lt, acc, ans, e, rfl⟩ := hp
  · exact .inl ⟨acc, rfl⟩
  · exact .inr (.inl ⟨j, a, v, lt, acc, ans, e, rfl⟩)
  · exact .inr (.inr ⟨j, v, lt, acc, ans, e, rfl⟩)

theorem Extends.writeCache (s : State) (i : Slot) (p : Pixel) : Extends s 0 [] (s.writeCache i p) := by
  simp [Extends]

theorem Extends.setRun (s : State) (n : BitVec 6) : Extends s 0 [] (s.setRun n) := by simp [Extends]

theorem Extends.setFsm (s : State) (f : Fsm) : Extends s 0 [] (s.setFsm f) := by simp [Extends]

theorem Extends.advance (s : State) (p : Pixel) : Extends s 0 [] (s.advance p) := by simp [Extends]

/-! The packer's procedures (R130 to R135), the header writer (R101) and the finalizer's flush (R140). -/

theorem emitRun_emits (n : BitVec 6) (s : State) :
    (emitRun n s).Emits s [runBytes (n - 1)] ((s.appended (runBytes (n - 1))).setRun 0) :=
  (emit_emits _ s).andDo (.setRun _ _) rfl

theorem emitIndex_emits (i : Slot) (s : State) :
    (emitIndex i s).Emits s [indexBytes i] (s.appended (indexBytes i)) :=
  emit_emits _ s

theorem emitRgba_emits (p : Pixel) (i : Slot) (s : State) :
    (emitRgba p i s).Emits s [rgbaBytes p.r p.g p.b p.a]
      ((s.appended (rgbaBytes p.r p.g p.b p.a)).writeCache i p) :=
  (emit_emits _ s).andDo (.writeCache _ _ _) rfl

/-- The bytes EmitDiff packs (R133). -/
abbrev diffBytesOf (p q : Pixel) : List Byte :=
  diffBytes ((diffFields p q).dr.setWidth 2) ((diffFields p q).dg.setWidth 2)
    ((diffFields p q).db.setWidth 2)

/-- The bytes EmitLuma packs (R134). -/
abbrev lumaBytesOf (p q : Pixel) : List Byte :=
  lumaBytes ((lumaFields p q).lg.setWidth 6) ((lumaFields p q).lrg.setWidth 4)
    ((lumaFields p q).lbg.setWidth 4)

theorem emitDiff_emits (p q : Pixel) (i : Slot) (s : State) :
    (emitDiff p q i s).Emits s [diffBytesOf p q] ((s.appended (diffBytesOf p q)).writeCache i p) :=
  (emit_emits (diffBytesOf p q) s).andDo (w := fun t => t.writeCache i p) (.writeCache _ _ _) rfl

theorem emitLuma_emits (p q : Pixel) (i : Slot) (s : State) :
    (emitLuma p q i s).Emits s [lumaBytesOf p q] ((s.appended (lumaBytesOf p q)).writeCache i p) :=
  (emit_emits (lumaBytesOf p q) s).andDo (w := fun t => t.writeCache i p) (.writeCache _ _ _) rfl

theorem emitRgb_emits (p : Pixel) (i : Slot) (s : State) :
    (emitRgb p i s).Emits s [rgbBytes p.r p.g p.b] ((s.appended (rgbBytes p.r p.g p.b)).writeCache i p) :=
  (emit_emits _ s).andDo (.writeCache _ _ _) rfl

theorem writeHeader_emits (w h : BitVec 32) (s : State) :
    (writeHeader w h s).Emits s [headerBytes w h] (s.appended (headerBytes w h)) :=
  emit_emits _ s

/-- The flush of an open run (R116, R140). -/
theorem flushRun_open {s : State} (h : s.run ≠ 0) : flushRun s = emitRun s.run s := by
  have : 0 < s.run.toNat := by
    rcases Nat.eq_zero_or_pos s.run.toNat with z | z
    · exact absurd (BitVec.eq_of_toNat_eq (by simpa using z)) h
    · exact z
  simp [flushRun, State.runOpen, this]

theorem flushRun_closed {s : State} (h : s.run = 0) : flushRun s = .goOn s := by
  simp [flushRun, State.runOpen, h]

/-- The RUN byte of an open run is the flush of R116. -/
theorem flushAppends_open (n : BitVec 6) (h : n ≠ 0) : flushAppends n = [runBytes (n - 1)] := by
  revert n; decide

theorem flushAppends_closed : flushAppends 0 = [] := rfl

/-- The end of a step `i` performed from `s`, whose emitting part starts at `v` (`s` itself, or the fresh encode
of a START): complete in `t`, in the SINK_FAILURE fault, or waiting for the sink (R52, R53, R156). -/
theorem Progress.Emits.finish {p : Progress} {v t : State} {ps : List (List Byte)}
    (h : p.Emits v ps t) (i : Instr) (s : State) :
    (v.SinkAccepts (ps.length - v.granted) ∧ p.finish i s = .next t.settle) ∨
    (∃ m k u, m < ps.length - v.granted ∧ v.SinkAccepts m ∧ v.answerAt m = some (.fail k) ∧
      Extends v (m + 1) (((ps.drop v.granted).take m).flatten ++ (ps.getD (v.granted + m) []).take k) u ∧
      p.finish i s = .next (u.raise (.sinkFailure k)).settle) ∨
    (∃ m u, m < ps.length - v.granted ∧ v.SinkAccepts m ∧ v.answerAt m = none ∧
      Extends v m ((ps.drop v.granted).take m).flatten u ∧ p.finish i s = .next (s.suspend i u)) := by
  obtain ⟨-, -, ⟨acc, rfl⟩ | ⟨m, k, u, lt, sa, ans, e, rfl⟩ | ⟨m, u, lt, sa, ans, e, rfl⟩⟩ := h
  · exact .inl ⟨acc, rfl⟩
  · exact .inr (.inl ⟨m, k, u, lt, sa, ans, e, rfl⟩)
  · exact .inr (.inr ⟨m, u, lt, sa, ans, e, rfl⟩)

/-- With an accepting sink the step completes in `t`. -/
theorem Progress.Emits.finish_of_accepts {p : Progress} {v t : State} {ps : List (List Byte)}
    (h : p.Emits v ps t) (acc : v.SinkAccepts (ps.length - v.granted)) (i : Instr) (s : State) :
    p.finish i s = .next t.settle := by
  obtain ⟨-, e⟩ | ⟨m, k, u, lt, -, ans, -⟩ | ⟨m, u, lt, -, ans, -⟩ := h.finish i s
  · exact e
  · rw [acc m lt] at ans; cases ans
  · rw [acc m lt] at ans; cases ans

/-- What a suspended step leaves (R53): nothing of the block has changed. -/
theorem Extends.suspend {s u : State} {m : Nat} {bs : List Byte} (e : Extends s m bs u) (i : Instr) :
    s.suspend i u =
      { s with
        out := s.out ++ bs
        script := s.script.drop (m + 1)
        turns := s.turns + m + 1
        waiting := some { instr := i, accepted := s.granted + m } } := by
  obtain ⟨h1, h2, h3, -⟩ := e
  simp [State.suspend, h1, h2, h3]

/-! The parts of the decision (R113 to R115) and the finalizer (R140). -/

/-- Steps 3 to 7: the one chunk of the priority, and the cache write that goes with it (R113, R114). -/
theorem emitChunk_emits (p : Pixel) (s : State) :
    (emitChunk p (pixelHash p) s).Emits s [recordBytes (chunkFor p s.prev (s.cacheHit p))]
      { s.appended (recordBytes (chunkFor p s.prev (s.cacheHit p))) with
        cache := if s.cacheHit p = false then s.cache.set (pixelHash p).toNat p (pixelHash p).isLt
          else s.cache } := by
  have same : ∀ (bs : List Byte), { s.appended bs with cache := s.cache } = s.appended bs := fun bs => by
    unfold State.appended; split <;> rfl
  have write : ∀ (bs : List Byte), { s.appended bs with
      cache := s.cache.set (pixelHash p).toNat p (pixelHash p).isLt } =
      (s.appended bs).writeCache (pixelHash p) p := fun bs => by
    unfold State.appended; split <;> rfl
  unfold emitChunk chunkFor
  split
  · rename_i h; simp only [h, Bool.true_eq_false, if_false, same]; exact emitIndex_emits _ _
  · rename_i h
    simp only [h, if_true, write]
    split
    · exact emitRgba_emits _ _ _
    · split
      · exact emitDiff_emits _ _ _ _
      · split
        · exact emitLuma_emits _ _ _ _
        · exact emitRgb_emits _ _ _

/-- Run reaches its cap exactly from 61 (R115). -/
theorem run_reaches_cap (n : BitVec 6) : n + 1 = Config.runMax ↔ n.toNat = 61 := by
  revert n; decide

theorem continueRun_at_cap (p : Pixel) (i : Slot) {s : State} (h : s.run.toNat = 61) :
    continueRun p i s = emitRun Config.runMax ((s.setRun (s.run + 1)).writeCache i p) :=
  if_pos ((run_reaches_cap s.run).2 h)

theorem continueRun_below_cap (p : Pixel) (i : Slot) {s : State} (h : s.run.toNat ≠ 61) :
    continueRun p i s = .goOn ((s.setRun (s.run + 1)).writeCache i p) :=
  if_neg (mt (run_reaches_cap s.run).1 h)

/-- The marker and fsm <- DONE (R140). -/
theorem endMarker_emits (s : State) :
    ((emit endMarkerBytes s).andDo fun t => t.setFsm .done).Emits s [endMarkerBytes]
      ((s.appended endMarkerBytes).setFsm .done) :=
  (emit_emits _ s).andDo (w := fun t => t.setFsm .done) (.setFsm _ _) rfl

theorem finalize_closed {s : State} (h : s.run = 0) :
    (finalize s).Emits s (finalizerAppends s.run) ((s.appended endMarkerBytes).setFsm .done) := by
  unfold finalize
  rw [flushRun_closed h, Progress.goOn_andThen, h]
  exact endMarker_emits s

theorem finalize_open {s : State} (h : s.run ≠ 0) :
    (finalize s).Emits s (finalizerAppends s.run)
      ((((s.appended (runBytes (s.run - 1))).setRun 0).appended endMarkerBytes).setFsm .done) := by
  unfold finalize finalizerAppends
  rw [flushRun_open h, flushAppends_open _ h]
  exact (emitRun_emits s.run s).andThen
    (f := fun t => (emit endMarkerBytes t).andDo fun u => u.setFsm .done) (endMarker_emits _)

end Sys2Proof.Machine
end

