-- ==== Sys2Proof/Laws/PerInstr.lean ====
section
/-! SUPPORT. Facts about every instruction as syntax, one lemma per constructor: the length of its encoding
(spec/30_encoding.md R70, R75 to R77). -/

namespace Sys2Proof.Laws

/-- How many bytes a record has; a command is one 66-bit word and has none (R70, R75 to R83). -/
def EncodedLength.bytes (i : Instr) : Option Nat :=
  match encode i with
  | .command _ => none
  | .record bs => some bs.length

/-- The length of each row's encoding: 1, 2, 4 or 5 bytes for a chunk (R77), 14 for the header (R75), 8 for the
end marker (R76). -/
def EncodedLength.Statement (i : Instr) : Prop :=
  EncodedLength.bytes i =
    match i with
    | .start _ _ | .pixel _ _ _ _ | .reserved _ => none
    | .index _ | .diff _ _ _ | .run _ => some 1
    | .luma _ _ _ => some 2
    | .rgb _ _ _ => some 4
    | .rgba _ _ _ _ => some 5
    | .header _ _ => some 14
    | .endMarker => some 8

theorem EncodedLength.start (w h : BitVec 32) : EncodedLength.Statement (.start w h) := rfl

theorem EncodedLength.pixel (r g b a : Byte) : EncodedLength.Statement (.pixel r g b a) := rfl

theorem EncodedLength.reserved (word : CommandWord) : EncodedLength.Statement (.reserved word) := rfl

theorem EncodedLength.index (i : Slot) : EncodedLength.Statement (.index i) := rfl

theorem EncodedLength.diff (dr dg db : BitVec 2) : EncodedLength.Statement (.diff dr dg db) := rfl

theorem EncodedLength.luma (dg : BitVec 6) (drdg dbdg : BitVec 4) :
    EncodedLength.Statement (.luma dg drdg dbdg) := rfl

theorem EncodedLength.run (lessOne : BitVec 6) : EncodedLength.Statement (.run lessOne) := rfl

theorem EncodedLength.rgb (r g b : Byte) : EncodedLength.Statement (.rgb r g b) := rfl

theorem EncodedLength.rgba (r g b a : Byte) : EncodedLength.Statement (.rgba r g b a) := rfl

theorem EncodedLength.header (w h : BitVec 32) : EncodedLength.Statement (.header w h) := rfl

theorem EncodedLength.endMarker : EncodedLength.Statement .endMarker := rfl

end Sys2Proof.Laws
end

