-- ==== Sys2Proof/Tests/Slice0.lean ====
section
/-! SUPPORT. Tests with expected results from spec/95_test_vectors.md (the vector's name stands at each) and
from the encodings of spec/30_encoding.md, and the witnesses of the statements' hypotheses. -/

namespace Sys2Proof.Tests

open Sys2Proof Sys2Proof.Machine

/-! Helpers: small states, and a field of the next state. -/

/-- A sink that accepts the next three appends. -/
def accepting : List (Option SinkAnswer) := [some .accept, some .accept, some .accept]

/-- The state right after reset, with an accepting sink. -/
def idle : State := { State.reset with script := accepting }

/-- An encode of a `w` by `h` image that has consumed `n` pixels, the last of them `p`, with `run` pixels of
an open run; the slots not named here are transparent black. -/
def encoding (w h : BitVec 32) (n : BitVec 64) (p : Pixel) (run : BitVec 6) (seen : List Pixel) : State :=
  seen.foldl (fun s q => s.writeCache (pixelHash q) q)
    { idle.initEncode w h with count := n, prev := p, run := run, fsm := .active }

/-- The state of an encode before its first pixel. -/
def fresh (w h : BitVec 32) : State := encoding w h 0 Pixel.opaqueBlack 0 []

/-- RU10 before its third pixel, with a sink that accepts one append and then gives no answer. -/
def flushing : State :=
  { encoding 4 1 2 Pixel.opaqueBlack 2 [Pixel.opaqueBlack] with script := [some .accept, none] }

/-- The same encode, waiting in its third pixel: the flush C1 is accepted and the chunk is not answered yet. -/
def waitingPixel : State :=
  { flushing with out := [0xC1], waiting := some { instr := .pixel 7 7 7 255, accepted := 1 } }

/-- A state in ERROR with cause PROTOCOL. -/
def failed : State := { idle with fsm := .error, cause := .protocol }

/-- A state in DONE after a 1 by 1 image. -/
def finished : State := { fresh 1 1 with count := 1, fsm := .done }

/-- What `f` sees of the next state; nothing if the machine stops. -/
def seen {α : Type} (o : Host.Outcome State Fault Refusal) (f : State → α) : Option α :=
  match o with
  | .next t => some (f t)
  | _ => none

/-- The refusal of an outcome that is one. -/
def refusalOf (o : Host.Outcome State Fault Refusal) : Option Refusal :=
  match o with
  | .refused r => some r
  | _ => none

/-- The bytes a decoder refuses, or the instruction it reads. -/
def decoded (c : Code) : Option Instr :=
  match decode c with
  | .ok i => some i
  | .error _ => none

def errorOf (c : Code) : Option DecodeError :=
  match decode c with
  | .ok _ => none
  | .error e => some e

/-! WellFormed: an ill-formed term for each check is refused. -/

/-- R77, R81: the field of a RUN is at most 61; FE and FF are RGB and RGBA. -/
theorem test_wellFormed_run :
    ¬ WellFormed (.run 62) ∧ ¬ WellFormed (.run 63) ∧ WellFormed (.run 61) := by decide

/-- R73: a START word and a PIXEL word are not reserved; OP 00, OP 11 and a PIXEL with bits 63:32 set are. -/
theorem test_wellFormed_reserved :
    ¬ WellFormed (.reserved 0x1_00000064_000000C8#66) ∧
    ¬ WellFormed (.reserved 0x2_00000000_0A141EFF#66) ∧
    WellFormed (.reserved 0x0_00000000_00000000#66) ∧
    WellFormed (.reserved 0x3_00000000_00000000#66) ∧
    WellFormed (.reserved 0x2_00000001_000000FF#66) := by decide

/-! Decoding of words written out from the spec's encodings. -/

/-- R71, vector ST1. -/
theorem test_decode_start : decoded (.command 0x1_00000064_000000C8#66) = some (.start 100 200) := by decide

/-- R72, program P3. -/
theorem test_decode_pixel :
    decoded (.command 0x2_00000000_141C2780#66) = some (.pixel 20 28 39 128) := by decide

/-- R73, vectors F2, F3, F4. -/
theorem test_decode_reserved :
    decoded (.command 0x3_00000000_00000000#66) = some (.reserved 0x3_00000000_00000000#66) ∧
    decoded (.command 0x0_00000000_00000000#66) = some (.reserved 0x0_00000000_00000000#66) ∧
    decoded (.command 0x2_00000001_000000FF#66) = some (.reserved 0x2_00000001_000000FF#66) := by decide

/-- R78, program P2: 00 110101. -/
theorem test_decode_index : decoded (.record [0b00110101]) = some (.index 53) := by decide

/-- R79, vectors DF1 and DF6: 01 11 10 10 and 01 01 11 00. -/
theorem test_decode_diff :
    decoded (.record [0b01111010]) = some (.diff 3 2 2) ∧
    decoded (.record [0b01011100]) = some (.diff 1 3 0) := by decide

/-- R80, vectors LU1 and LU2: 10 100111 1000 1000 and 10 000000 0000 1111. -/
theorem test_decode_luma :
    decoded (.record [0b10100111, 0b10001000]) = some (.luma 39 8 8) ∧
    decoded (.record [0b10000000, 0b00001111]) = some (.luma 0 0 15) := by decide

/-- R81, vectors RU1 and RU3: RUN 1 is C0 and RUN 62 is FD. -/
theorem test_decode_run :
    decoded (.record [0xC0]) = some (.run 0) ∧ decoded (.record [0xFD]) = some (.run 61) := by decide

/-- R82, vector LU3. -/
theorem test_decode_rgb :
    decoded (.record [0xFE, 0x3C, 0x44, 0x4C]) = some (.rgb 60 68 76) := by decide

/-- R83, vector IX4. -/
theorem test_decode_rgba :
    decoded (.record [0xFF, 0x14, 0x1C, 0x27, 0x80]) = some (.rgba 20 28 39 128) := by decide

/-- R75, vector S1. -/
theorem test_decode_header :
    decoded (.record [0x71, 0x6F, 0x69, 0x66, 0x00, 0x00, 0x00, 0x64, 0x00, 0x00, 0x00, 0xC8, 0x04, 0x00]) =
      some (.header 100 200) := by decide

/-- R76, vector S2. -/
theorem test_decode_end :
    decoded (.record [0x00, 0x00, 0x00, 0x00, 0x00, 0x00, 0x00, 0x01]) = some .endMarker := by decide

/-- Bytes that are no record are refused by name (R75 to R77). -/
theorem test_decode_refuses :
    errorOf (.record []) = some .emptyRecord ∧
    errorOf (.record [0xFE, 0x01, 0x02]) = some (.wrongLength 0xFE 3) ∧
    errorOf (.record [0x35, 0x00]) = some (.wrongLength 0x35 2) ∧
    errorOf (.record [0x00, 0x00, 0x00, 0x00, 0x00, 0x00, 0x00, 0x02]) = some .notEndMarker ∧
    errorOf (.record [0x71, 0x6F, 0x69, 0x66, 0, 0, 0, 1, 0, 0, 0, 1, 0x03, 0x00]) = some .notHeader := by
  decide

/-- The stream of program P3 between its header and END cuts into the chunks of the table there (R84). -/
theorem test_cut_chunks :
    cutChunks [0xFE, 0x0A, 0x14, 0x1E, 0x76, 0xA9, 0x88, 0xFF, 0x14, 0x1C, 0x27, 0x80, 0x09, 0xC0] =
      some [.rgb 10 20 30, .diff 3 1 2, .luma 41 8 8, .rgba 20 28 39 128, .index 9, .run 0] := by decide

/-- R74, program P5: REPEAT 2 stands for two words; DF6 disassembles with signed deltas. -/
theorem test_assembler :
    assemble [.start 2 2, .repeatPixel 2 0 0 0 0, .pixel 255 255 255 255] =
      some [0x1_00000002_00000002#66, 0x2_00000000_00000000#66, 0x2_00000000_00000000#66,
        0x2_00000000_FFFFFFFF#66] ∧
    (decoded (.record [0x5C])).bind disassemble = some (.diff (-1) 1 (-2)) ∧
    (decoded (.record [0x80, 0x0F])).bind disassemble = some (.luma (-32) (-8) 7) ∧
    (decoded (.record [0xFD])).bind disassemble = some (.run 62) := by decide

/-! The words of spec/opcode_table.json, decoded and run as the first instruction after reset (log 11). -/

theorem test_table_words :
    decodeTableWord 66 0x1_00000064_000000C8 = some (.start 100 200) ∧
    decodeTableWord 72 0x2_00000000_0A141EFF = some (.pixel 10 20 30 255) ∧
    decodeTableWord 66 0 = some (.reserved 0) ∧
    decodeTableWord 8 0x35 = some (.index 53) ∧
    decodeTableWord 8 0x7A = some (.diff 3 2 2) ∧
    decodeTableWord 16 0x88A7 = some (.luma 39 8 8) ∧
    decodeTableWord 8 0xFD = some (.run 61) ∧
    decodeTableWord 32 0x000080FE = some (.rgb 128 0 0) ∧
    decodeTableWord 40 0x04030201FF = some (.rgba 1 2 3 4) ∧
    decodeTableWord 112 0x0004C80000006400000066696F71 = some (.header 100 200) ∧
    decodeTableWord 64 1 = some .endMarker := by decide

/-- A row with fewer bits than its instruction: the missing operand bytes are 0. -/
theorem test_table_words_short :
    decodeTableWord 8 0x80 = some (.luma 0 0 0) ∧ decodeTableWord 8 0xFE = some (.rgb 0 0 0) ∧
    decodeTableWord 8 0xFF = some (.rgba 0 0 0 0) := by decide

/-- `withFetchWord` on reset places exactly that instruction: START 100, 200 as ST1, INDEX 53 by its byte. -/
theorem test_withFetchWord :
    seen (step (idle.withFetchWord 66 0x1_00000064_000000C8)) (·.out) =
      some [0x71, 0x6F, 0x69, 0x66, 0x00, 0x00, 0x00, 0x64, 0x00, 0x00, 0x00, 0xC8, 0x04, 0x00] ∧
    seen (step (idle.withFetchWord 8 0x35)) (·.out) = some [0x35] := by decide

/-- From reset itself, where every answer of the sink is free, the step with a row's word is a next state. -/
theorem test_runs_from_reset :
    ∀ row ∈ [(66, 0x1_00000000_00000000), (66, 0x2_00000000_00000000), (66, 0), (8, 0x00), (8, 0x40), (8, 0x80),
        (16, 0x80), (8, 0xC0), (8, 0xFE), (32, 0xFE), (8, 0xFF), (40, 0xFF), (112, 0x0004000000000000000066696F71),
        (16, 1), (64, 1)],
      (decodeTableWord row.1 row.2).isSome = true ∧
        seen (step (State.reset.withFetchWord row.1 row.2)) (fun _ => true) = some true := by decide

/-! Pure functions. -/

/-- R110, section 2.1. -/
theorem test_hash :
    pixelHash { r := 1, g := 2, b := 3, a := 4 } = 14 ∧ pixelHash { r := 20, g := 28, b := 39, a := 255 } = 14 ∧
    pixelHash { r := 255, g := 255, b := 255, a := 0 } = 49 ∧
    pixelHash { r := 10, g := 20, b := 30, a := 255 } = 9 := by decide

/-- R112, vectors LU11 and DF9: dr - dg = -9, and dr = -3. -/
theorem test_fields :
    lumaFields { r := 91, g := 100, b := 100, a := 255 } { r := 100, g := 100, b := 100, a := 255 } =
      { lg := 32, lrg := 255, lbg := 8 } ∧
    diffFields { r := 97, g := 100, b := 100, a := 255 } { r := 100, g := 100, b := 100, a := 255 } =
      { dr := 255, dg := 2, db := 2 } := by decide

/-! START. -/

/-- ST3, ST5: the largest width is accepted, and a height of 0 is not; STATUS after. -/
theorem test_start_status :
    seen (exec (.start 0xFFFFFFFF 1) idle) (·.status) = some 0x01 ∧
    seen (exec (.start 1 0) idle) (fun t => (t.out, t.status)) = some ([], 0x07) := by decide

/-- ST7, ST9: the protocol check comes before the dimensions; START in ERROR replaces the cause. -/
theorem test_start_checks :
    seen (exec (.start 0 0) (fresh 2 1)) (fun t => (t.out, t.status)) = some ([], 0x0F) ∧
    seen (exec (.start 0 1) failed) (fun t => (t.out, t.status)) = some ([], 0x07) := by decide

/-! PIXEL. -/

/-- P2, third pixel: the run step wrote slot 53, so opaque black is INDEX 53, and END follows. -/
theorem test_pixel_index_end :
    seen (exec (.pixel 0 0 0 255)
        (encoding 3 1 2 { r := 10, g := 0, b := 0, a := 255 } 0
          [Pixel.opaqueBlack, { r := 10, g := 0, b := 0, a := 255 }]))
      (fun t => (t.out, t.status, t.count)) =
    some ([0x35, 0x00, 0x00, 0x00, 0x00, 0x00, 0x00, 0x00, 0x01], 0x02, 3) := by decide

/-- RU10, third pixel: the flush of RUN 2 comes before LUMA 7, 0, 0, and the slot is written. -/
theorem test_pixel_flush_luma :
    seen (exec (.pixel 7 7 7 255) (encoding 4 1 2 Pixel.opaqueBlack 2 [Pixel.opaqueBlack]))
      (fun t => (t.out, t.run, t.readCache 30)) =
    some ([0xC1, 0xA7, 0x88], 0, { r := 7, g := 7, b := 7, a := 255 }) := by decide

/-! RESERVED. -/

/-- F2, F11: PROTOCOL from IDLE; in ERROR nothing happens and the cause stays. -/
theorem test_reserved :
    seen (exec (.reserved 0x3_00000000_00000000#66) idle) (fun t => (t.out, t.status)) = some ([], 0x0F) ∧
    seen (exec (.reserved 0) { failed with cause := .invalidInput }) (·.status) = some 0x07 := by decide

/-! The packer's procedures (R130 to R135, R101, R140). -/

/-- R131: one byte, and no state write. -/
theorem test_index :
    seen (exec (.index 9) (fresh 2 1)) (fun t => (t.out, decide (t.cache = (fresh 2 1).cache))) =
      some ([0x09], true) := by decide

/-- DF7: DIFF 1, -1, 1 after (255,1,254,255) is (0,0,255,255), of hash 46 (0 + 0 + 1785 + 2805 = 4590). -/
theorem test_diff :
    seen (exec (.diff 3 1 3) (encoding 3 1 1 { r := 255, g := 1, b := 254, a := 255 } 0 []))
      (fun t => (t.out, t.readCache 46)) =
    some ([0x77], { r := 0, g := 0, b := 255, a := 255 }) := by decide

/-- LU2: LUMA -32, -8, 7 after (100,100,100,255) is (60,68,75,255), of hash 10 (180 + 340 + 525 + 2805 =
3850, which is 60 * 64 + 10). -/
theorem test_luma :
    seen (exec (.luma 0 0 15) (encoding 3 1 1 { r := 100, g := 100, b := 100, a := 255 } 0 []))
      (fun t => (t.out, t.readCache 10)) =
    some ([0x80, 0x0F], { r := 60, g := 68, b := 75, a := 255 }) := by decide

/-- R130: RUN 62 is FD, and run becomes 0. -/
theorem test_run :
    seen (exec (.run 61) (encoding 9 9 70 Pixel.opaqueBlack 62 [])) (fun t => (t.out, t.run)) =
      some ([0xFD], 0) := by decide

/-- RG2: the slot of (0,128,0,255) is 53. -/
theorem test_rgb :
    seen (exec (.rgb 0 128 0) (fresh 2 1)) (fun t => (t.out, t.readCache 53)) =
      some ([0xFE, 0x00, 0x80, 0x00], { r := 0, g := 128, b := 0, a := 255 }) := by decide

/-- RA1: the slot of (1,2,3,4) is 14. -/
theorem test_rgba :
    seen (exec (.rgba 1 2 3 4) (fresh 2 1)) (fun t => (t.out, t.readCache 14)) =
      some ([0xFF, 0x01, 0x02, 0x03, 0x04], { r := 1, g := 2, b := 3, a := 4 }) := by decide

/-- F6: Fail(5) leaves the first five bytes of the header, and SINK_FAILURE. -/
theorem test_header_fails :
    seen (exec (.header 1 1) { idle with script := [some (.fail 5)] }) (fun t => (t.out, t.status)) =
      some ([0x71, 0x6F, 0x69, 0x66, 0x00], 0x0B) := by decide

/-- FN4: the finalizer's flush is RUN 2, then the marker, and DONE. -/
theorem test_end :
    seen (exec .endMarker (encoding 3 1 3 { r := 10, g := 0, b := 0, a := 255 } 2 []))
      (fun t => (t.out, t.status)) =
    some ([0xC1, 0x00, 0x00, 0x00, 0x00, 0x00, 0x00, 0x00, 0x01], 0x02) := by decide

/-- F9: the run flush is accepted and the marker cut after three bytes; F10: a failure with every byte
accepted is still a failure, and no marker follows. -/
theorem test_end_fails :
    seen (exec (.pixel 0 0 0 255) { fresh 1 1 with script := [some .accept, some (.fail 3)] })
      (fun t => (t.out, t.status)) = some ([0xC0, 0x00, 0x00, 0x00], 0x0B) ∧
    seen (exec (.pixel 0 0 0 255) { fresh 1 1 with script := [some (.fail 1)] })
      (fun t => (t.out, t.status)) = some ([0xC0], 0x0B) := by decide

/-! The machine (R53, R170, R178). -/

/-- STATUS is handed back and hardware reset brings it to 0x00; with nothing to do the block is idle. -/
theorem test_interactions :
    seen (step { failed with input := [.readStatus, .hardwareReset] }) (fun t => (t.statusReads, t.input)) =
      some ([0x0F], [.hardwareReset]) ∧
    seen (step { failed with input := [.hardwareReset] }) (·.status) = some 0x00 ∧
    seen (step State.reset) id = some State.reset := by decide

/-- Bytes that are no record are refused (log 8). -/
theorem test_stops :
    refusalOf (step { idle with input := [.code (.record [0x35, 0x35])] }) =
      some (.badRecord (.wrongLength 0x35 2)) := by decide

/-- R53, on the last pixel of RU10: the sink accepts the flush and is then silent. The RUN byte is in OUT, and
STATUS, run, count and the pixel's slot are those from before the step. -/
theorem test_waits :
    seen (exec (.pixel 7 7 7 255) flushing) (fun t => (t.out, t.status, t.waiting)) =
      some ([0xC1], 0x01, some { instr := .pixel 7 7 7 255, accepted := 1 }) ∧
    seen (exec (.pixel 7 7 7 255) flushing) (fun t => (t.run, t.count, t.readCache 30)) =
      some (2, 2, Pixel.transparent) := by decide

/-- R53, R29: while it waits the block takes no command (log 4) and STATUS reads 0x01; when the sink answers, the
chunk follows the byte accepted before. -/
theorem test_waiting_steps :
    seen (step { waitingPixel with script := [none], input := [.code (.command 0)] })
      (fun t => (t.out, t.input, t.waiting.isSome)) = some ([0xC1], [.code (.command 0)], true) ∧
    seen (step { waitingPixel with script := [none], input := [.readStatus] })
      (fun t => (t.statusReads, t.waiting.isSome)) = some ([0x01], true) ∧
    seen (step { waitingPixel with script := [some .accept], input := [.code (.command 0)] })
      (fun t => (t.out, t.count, t.waiting)) = some ([0xC1, 0xA7, 0x88], 3, none) := by decide

/-- R170 while a step waits: IDLE and NONE, OUT as it was, and no command under way (log 21). -/
theorem test_reset_while_waiting :
    seen (step { waitingPixel with script := [none], input := [.hardwareReset] })
      (fun t => (t.status, t.out, t.waiting)) = some (0x00, [0xC1], none) := by decide

/-! Witnesses: for each statement with hypotheses, a state and operands that meet all of them together, with
each clause at the edge of its range. -/

/-- The sink of `accepting` accepts three appends. -/
theorem accepting_accepts (s : State) (h : s.script = accepting) : s.SinkAccepts 3 := by
  intro k lt
  match k, lt with
  | 0, _ => simp [State.answerAt, h, accepting]
  | 1, _ => simp [State.answerAt, h, accepting]
  | 2, _ => simp [State.answerAt, h, accepting]

theorem accepts_fewer {s : State} {n m : Nat} (h : s.SinkAccepts n) (le : m ≤ n) : s.SinkAccepts m :=
  fun k lt => h k (Nat.lt_of_lt_of_le lt le)

/-- (128,0,0,255), the pixel of vector S6. -/
def red : Pixel := { r := 128, g := 0, b := 0, a := 255 }

/-- A 100 by 1 image's encode with an open run of `n` pixels `red`. -/
def running (n : BitVec 6) : State := encoding 100 1 (n.setWidth 64 + 1) red n [red]

/-- The host sends `u` and nothing after it. -/
def sending (s : State) (u : Input) : State := { s with input := [u] }

theorem witness_DecodeOfEncode :
    WellFormed (.run 61) ∧ WellFormed (.reserved 0x3_FFFFFFFF_FFFFFFFF#66) ∧ WellFormed (.start 0 0) := by decide

theorem witness_EncodeOfDecoded :
    decode (.record [0xFD]) = .ok (.run 61) ∧
    decode (.command 0x2_00000000_00000000#66) = .ok (.pixel 0 0 0 0) := ⟨rfl, rfl⟩

/-- Each clause at both ends of its range. -/
theorem witness_FirstByteSelectsKind :
    decodeChunk 0x00 [] = .ok (.index 0) ∧ decodeChunk 0x3F [] = .ok (.index 63) ∧
    decodeChunk 0x40 [] = .ok (.diff 0 0 0) ∧ decodeChunk 0x7F [] = .ok (.diff 3 3 3) ∧
    decodeChunk 0x80 [0x00] = .ok (.luma 0 0 0) ∧ decodeChunk 0xBF [0xFF] = .ok (.luma 63 15 15) ∧
    decodeChunk 0xC0 [] = .ok (.run 0) ∧ decodeChunk 0xFD [] = .ok (.run 61) ∧
    decodeChunk 0xFE [1, 2, 3] = .ok (.rgb 1 2 3) ∧ decodeChunk 0xFF [1, 2, 3, 4] = .ok (.rgba 1 2 3 4) ∧
    decodeChunk 0xFD [0] = .error (.wrongLength 0xFD 2) := ⟨rfl, rfl, rfl, rfl, rfl, rfl, rfl, rfl, rfl, rfl, rfl⟩

theorem witness_ChunkByteFormulas :
    (encode (.run (BitVec.ofNat 6 (1 - 1))) = .record [0xC0] ∧ (1 : Nat) ≤ 1 ∧ (1 : Nat) ≤ 62) ∧
    (encode (.run (BitVec.ofNat 6 (62 - 1))) = .record [0xFD] ∧ (1 : Nat) ≤ 62 ∧ (62 : Nat) ≤ 62) := by decide

theorem witness_CutRecoversChunks :
    ∀ i ∈ [Instr.rgba 1 2 3 4, .run 61, .luma 63 15 0, .index 63], isChunk i = true ∧ WellFormed i := by decide

theorem witness_AssembledWordsDecode :
    1 ≤ 1 ∧ assembleLine (.repeatPixel 1 0 0 0 255) = some [0x2_00000000_000000FF#66] ∧
    assemble [] = some [] := by decide

/-- DF3 and LU2: the fields at the ends of their ranges. -/
theorem witness_RecoveryInvertsFields :
    (diffFits { r := 101, g := 101, b := 101, a := 255 } { r := 100, g := 100, b := 100, a := 255 } = true) ∧
    (lumaFits { r := 60, g := 68, b := 75, a := 255 } { r := 100, g := 100, b := 100, a := 255 } = true) := by
  decide

theorem witness_StartBeginsEncode :
    finished.waiting = none ∧ finished.fsm ≠ .active ∧ 1 ≤ (0xFFFFFFFF#32).toNat ∧ (0xFFFFFFFF#32).toNat ≤ Config.dimMax ∧
    1 ≤ (1#32).toNat ∧ (1#32).toNat ≤ Config.dimMax ∧ finished.SinkAccepts 1 :=
  ⟨rfl, by decide, by decide, by decide, by decide, by decide, accepts_fewer (accepting_accepts _ rfl) (by decide)⟩

theorem witness_OnlyZeroDimensionsInvalid :
    idle.fsm ≠ .active ∧ (∃ t, exec (.start 0 5) idle = .next t ∧ t.waiting = none ∧ t.cause = .invalidInput) ∧
    (∃ t, exec (.start 1 1) idle = .next t ∧ t.waiting = none ∧ t.cause = .none) :=
  ⟨by decide, ⟨_, rfl, rfl, rfl⟩, ⟨_, rfl, rfl, rfl⟩⟩

theorem witness_InvalidStartFaults :
    failed.fsm ≠ .active ∧ ¬ (1 ≤ (1#32).toNat ∧ (1#32).toNat ≤ Config.dimMax ∧ 1 ≤ (0#32).toNat ∧
      (0#32).toNat ≤ Config.dimMax) := by decide

/-- F6. -/
theorem witness_StartSinkFailure :
    idle.waiting = none ∧ idle.fsm ≠ .active ∧ (1#32 ≠ 0#32) ∧ 14 ≤ 14 ∧
    State.answerAt { idle with script := [some (.fail 14)] } 0 = some (.fail 14) := by decide

theorem witness_EncodesAreIndependent :
    idle.waiting = none ∧ failed.waiting = none ∧ idle.fsm ≠ .active ∧ failed.fsm ≠ .active ∧
    (∃ t, exec (.start 2 1) idle = .next t ∧ t.fsm = .active) ∧
    (∃ t, exec (.start 2 1) failed = .next t ∧ t.fsm = .active) :=
  ⟨rfl, rfl, by decide, by decide, ⟨_, rfl, rfl⟩, ⟨_, rfl, rfl⟩⟩

/-- A last pixel that flushes a run and emits its chunk and the end marker: three appends. -/
theorem witness_PixelStepResult :
    (encoding 3 1 2 red 1 [red]).waiting = none ∧ (encoding 3 1 2 red 1 [red]).fsm = .active ∧
    (encoding 3 1 2 red 1 [red]).SinkAccepts
      (pixelAppends (encoding 3 1 2 red 1 [red]) { r := 0, g := 9, b := 0, a := 255 }).length :=
  ⟨rfl, rfl, accepts_fewer (accepting_accepts _ rfl) (by decide)⟩

/-- Both clauses: the 61st and the 62nd pixel of a run. -/
theorem witness_RunContinuation :
    (∀ n ∈ [(60 : BitVec 6), 61], (running n).waiting = none ∧ (running n).fsm = .active ∧ red = (running n).prev ∧
      (running n).run.toNat ≤ 61 ∧
      (running n).count.toNat + 1 < (running n).width.toNat * (running n).height.toNat) ∧
    (running 60).run.toNat + 1 < 62 ∧ (running 61).run.toNat + 1 = 62 ∧
    (running 60).SinkAccepts 1 ∧ (running 61).SinkAccepts 1 :=
  ⟨by decide, by decide, by decide, accepts_fewer (accepting_accepts _ rfl) (by decide),
    accepts_fewer (accepting_accepts _ rfl) (by decide)⟩

/-- A pixel that is not the last, and one that is. -/
theorem witness_RunFlushComesFirst :
    (∀ s ∈ [running 1, encoding 3 1 2 red 1 [red]], s.waiting = none ∧ s.fsm = .active ∧
      Pixel.opaqueBlack ≠ s.prev ∧ 0 < s.run.toNat ∧ (pixelAppends s Pixel.opaqueBlack).length ≤ 3) ∧
    ((running 1).count + 1).toNat ≠ (running 1).width.toNat * (running 1).height.toNat ∧
    ((encoding 3 1 2 red 1 [red]).count + 1).toNat = 3 * 1 ∧
    (running 1).SinkAccepts 3 ∧ (encoding 3 1 2 red 1 [red]).SinkAccepts 3 :=
  ⟨by decide, by decide, by decide, accepting_accepts _ rfl, accepting_accepts _ rfl⟩

/-- The five kinds, each met: RA1, DF5, LU1, RG1 and IX1 are first pixels of an encode. -/
theorem witness_ChunkPriority :
    (∀ p ∈ [({ r := 0, g := 0, b := 0, a := 0 } : Pixel), { r := 1, g := 2, b := 3, a := 4 },
        { r := 254, g := 254, b := 254, a := 255 }, { r := 7, g := 7, b := 7, a := 255 }, red],
      p ≠ (fresh 2 1).prev) ∧
    (fresh 2 1).waiting = none ∧ (fresh 2 1).fsm = .active ∧ (fresh 2 1).run = 0 ∧
    ((fresh 2 1).count + 1).toNat ≠ (fresh 2 1).width.toNat * (fresh 2 1).height.toNat ∧
    (fresh 2 1).SinkAccepts 1 ∧
    (fresh 2 1).readCache (pixelHash Pixel.transparent) = Pixel.transparent ∧
    (4#8 ≠ (fresh 2 1).prev.a) ∧
    diffFits { r := 254, g := 254, b := 254, a := 255 } (fresh 2 1).prev = true ∧
    lumaFits { r := 7, g := 7, b := 7, a := 255 } (fresh 2 1).prev = true ∧
    diffFits red (fresh 2 1).prev = false ∧ lumaFits red (fresh 2 1).prev = false :=
  ⟨by decide, rfl, rfl, rfl, by decide, accepts_fewer (accepting_accepts _ rfl) (by decide), by decide, by decide,
    by decide, by decide, by decide, by decide⟩

theorem witness_PixelBecomesPrev :
    (fresh 2 1).fsm = .active ∧
    ∃ t, exec (.pixel red.r red.g red.b red.a) (fresh 2 1) = .next t ∧ t.waiting = none ∧ t.fsm ≠ .error :=
  ⟨rfl, ⟨_, rfl, rfl, by decide⟩⟩

/-- Both clauses: the first of two pixels, and the only one of one. -/
theorem witness_PixelCountsAndFinishes :
    (fresh 2 1).waiting = none ∧ (fresh 1 1).waiting = none ∧
    (fresh 2 1).fsm = .active ∧ (fresh 1 1).fsm = .active ∧
    (∃ t, exec (.pixel red.r red.g red.b red.a) (fresh 2 1) = .next t ∧ t.waiting = none ∧ t.fsm ≠ .error ∧
      ((fresh 2 1).count + 1).toNat ≠ (fresh 2 1).width.toNat * (fresh 2 1).height.toNat) ∧
    (∃ t, exec (.pixel red.r red.g red.b red.a) (fresh 1 1) = .next t ∧ t.waiting = none ∧ t.fsm ≠ .error ∧
      ((fresh 1 1).count + 1).toNat = (fresh 1 1).width.toNat * (fresh 1 1).height.toNat) :=
  ⟨rfl, rfl, rfl, rfl, ⟨_, rfl, rfl, by decide, by decide⟩, ⟨_, rfl, rfl, by decide, by decide⟩⟩

/-- A flush and a chunk, and RUN 62, both from the longest run at rest. -/
theorem witness_PixelEmitsOneOfFour :
    (running 61).waiting = none ∧ (running 61).fsm = .active ∧ (running 61).run.toNat ≤ 61 ∧
    (∃ t, exec (.pixel 0 0 0 255) (running 61) = .next t ∧ t.waiting = none ∧ t.fsm ≠ .error) ∧
    (∃ t, exec (.pixel red.r red.g red.b red.a) (running 61) = .next t ∧ t.waiting = none ∧ t.fsm ≠ .error) :=
  ⟨rfl, rfl, by decide, ⟨_, rfl, rfl, by decide⟩, ⟨_, rfl, rfl, by decide⟩⟩

theorem witness_NeverEmittedChunks :
    (running 1).waiting = none ∧ (running 1).fsm = .active ∧ Pixel.opaqueBlack ≠ (running 1).prev ∧
    ∃ t, exec (.pixel 0 0 0 255) (running 1) = .next t ∧ t.waiting = none ∧ t.fsm = .active :=
  ⟨rfl, rfl, by decide, ⟨_, rfl, rfl, by decide⟩⟩

/-- Both clauses: the first pixel of an encode, and a later one. -/
theorem witness_RunStepCacheWrite :
    (fresh 2 1).fsm = .active ∧ (running 1).fsm = .active ∧ red = (running 1).prev ∧
    (fresh 2 1).prev = { r := 0, g := 0, b := 0, a := 255 } ∧
    (running 1).readCache (pixelHash (running 1).prev) = (running 1).prev ∧
    (∃ t, exec (.pixel 0 0 0 255) (fresh 2 1) = .next t ∧ t.waiting = none ∧ t.fsm ≠ .error) ∧
    (∃ t, exec (.pixel red.r red.g red.b red.a) (running 1) = .next t ∧ t.waiting = none ∧ t.fsm ≠ .error) :=
  ⟨rfl, rfl, rfl, rfl, by decide, ⟨_, rfl, rfl, by decide⟩, ⟨_, rfl, rfl, by decide⟩⟩

theorem witness_BytesDependOnBlockAndSink :
    SameBlock (running 1) { running 1 with out := [0x71], statusReads := [0x01] } ∧
    (running 1).waiting = State.waiting { running 1 with out := [0x71], statusReads := [0x01] } ∧
    (∀ k < 3, (running 1).answerAt k =
      State.answerAt { running 1 with out := [0x71], statusReads := [0x01] } k) ∧
    ∃ t, exec (.pixel 0 0 0 255) (running 1) = .next t :=
  ⟨⟨rfl, rfl, rfl, rfl, rfl, rfl, rfl, rfl⟩, rfl, fun _ _ => rfl, ⟨_, rfl⟩⟩

/-- For every statement of a procedure with no command under way and its appends accepted. -/
theorem witness_SinkAccepts :
    ((fresh 2 1).waiting = none ∧ (fresh 2 1).SinkAccepts 1) ∧
    ((running 1).waiting = none ∧ (running 1).SinkAccepts 2) :=
  ⟨⟨rfl, accepts_fewer (accepting_accepts _ rfl) (by decide)⟩,
    ⟨rfl, accepts_fewer (accepting_accepts _ rfl) (by decide)⟩⟩

theorem witness_RunAppendsLength :
    (1 ≤ 1 ∧ 1 ≤ 62 ∧ 62 ≤ 62) ∧ (fresh 2 1).waiting = none ∧ (fresh 2 1).SinkAccepts 1 := ⟨by decide, witness_SinkAccepts.1⟩

theorem witness_RgbAppendsChannels : red.a = (fresh 2 1).prev.a ∧ (fresh 2 1).waiting = none ∧ (fresh 2 1).SinkAccepts 1 :=
  ⟨by decide, witness_SinkAccepts.1⟩

/-- DF6: DIFF -1, 1, -2 after opaque black. -/
theorem witness_DiffAppendsFields :
    (255#8 = (fresh 2 1).prev.r + (1#2).setWidth 8 - 2 ∧ 1#8 = (fresh 2 1).prev.g + (3#2).setWidth 8 - 2 ∧
      254#8 = (fresh 2 1).prev.b + (0#2).setWidth 8 - 2 ∧ 255#8 = (fresh 2 1).prev.a) ∧
    (fresh 2 1).waiting = none ∧ (fresh 2 1).SinkAccepts 1 := ⟨by decide, witness_SinkAccepts.1⟩

/-- LU14: LUMA -6, 6, 6 after opaque black is (0,250,0,255). -/
theorem witness_LumaAppendsFields :
    (250#8 = (fresh 2 1).prev.g + ((26#6).setWidth 8 - 32) ∧
      0#8 = (fresh 2 1).prev.r + (((26#6).setWidth 8 - 32) + (14#4).setWidth 8 - 8) ∧
      0#8 = (fresh 2 1).prev.b + (((26#6).setWidth 8 - 32) + (14#4).setWidth 8 - 8) ∧
      255#8 = (fresh 2 1).prev.a) ∧
    (fresh 2 1).waiting = none ∧ (fresh 2 1).SinkAccepts 1 := ⟨by decide, witness_SinkAccepts.1⟩

/-- Both cases: no run open, and a run of 1. -/
theorem witness_EndFinalizes :
    ((fresh 2 1).run = 0 ∧ (fresh 2 1).waiting = none ∧
      (fresh 2 1).SinkAccepts (if (fresh 2 1).run = 0 then 1 else 2)) ∧
    ((running 1).run ≠ 0 ∧ (running 1).waiting = none ∧ (running 1).SinkAccepts (if (running 1).run = 0 then 1 else 2)) :=
  ⟨⟨rfl, witness_SinkAccepts.1⟩, ⟨by decide, witness_SinkAccepts.2⟩⟩

/-- One accepted append makes `SinkAccepts 1`. -/
theorem accepts_one {s : State} (h : s.answerAt 0 = some .accept) : s.SinkAccepts 1 := by
  intro k lt
  match k, lt with
  | 0, _ => exact h

/-- Two accepted appends make `SinkAccepts 2`. -/
theorem accepts_two {s : State} (h : s.answerAt 0 = some .accept) (h' : s.answerAt 1 = some .accept) :
    s.SinkAccepts 2 := by
  intro k lt
  match k, lt with
  | 0, _ => exact h
  | 1, _ => exact h'

theorem accepts_none (s : State) : s.SinkAccepts 0 := fun k lt => absurd lt (Nat.not_lt_zero k)

/-- HEADER with k = 0 and k = 14; END with its flush accepted and its marker cut at k = 8. -/
theorem witness_RecordSinkFailure :
    (isCommand (.header 1 1) = false ∧ 0 < (State.appendsOf (fresh 2 1) (.header 1 1)).length ∧
      (∀ k ∈ [0, 14], (State.waiting { fresh 2 1 with script := [some (.fail k)] }) = none ∧
        State.answerAt { fresh 2 1 with script := [some (.fail k)] } 0 = some (.fail k))) ∧
    (isCommand .endMarker = false ∧ 1 < (State.appendsOf (running 1) .endMarker).length ∧
      State.SinkAccepts { running 1 with script := [some .accept, some (.fail 8)] } 1 ∧
      State.answerAt { running 1 with script := [some .accept, some (.fail 8)] } 1 = some (.fail 8)) :=
  ⟨⟨rfl, by decide, by decide⟩, ⟨rfl, by decide, accepts_one rfl, rfl⟩⟩

/-- Each of the three misuses (F1, F2, ST6). -/
theorem witness_MisuseIsProtocolFault :
    misused (.start 1 1) (fresh 2 1).fsm = true ∧ misused (.pixel 0 0 0 0) idle.fsm = true ∧
    misused (.pixel 0 0 0 0) finished.fsm = true ∧ misused (.reserved 0) (fresh 2 1).fsm = true := by decide

theorem witness_ErrorAbsorbs : failed.waiting = none ∧ failed.fsm = .error := ⟨rfl, rfl⟩

/-- Each of the four cases: F8, ST7, ST9, F10. -/
theorem witness_ChecksInOrder :
    (isCommand (.pixel 0 0 0 0) = true ∧ failed.waiting = none ∧ failed.fsm = .error ∧
      isStart (.pixel 0 0 0 0) = false ∧ ∃ t, exec (.pixel 0 0 0 0) failed = .next t ∧ t.waiting = none) ∧
    ((fresh 2 1).waiting = none ∧ misused (.start 0 0) (fresh 2 1).fsm = true ∧
      ∃ t, exec (.start 0 0) (fresh 2 1) = .next t ∧ t.waiting = none) ∧
    (misused (.start 0 1) failed.fsm = false ∧ startInvalid (.start 0 1) = true ∧
      ∃ t, exec (.start 0 1) failed = .next t ∧ t.waiting = none) ∧
    (∃ t, exec (.start 1 1) { idle with script := [some (.fail 14)] } = .next t ∧ t.waiting = none ∧
      t.fsm = .error) :=
  ⟨⟨rfl, rfl, rfl, rfl, ⟨_, rfl, rfl⟩⟩, ⟨rfl, rfl, ⟨_, rfl, rfl⟩⟩, ⟨rfl, rfl, ⟨_, rfl, rfl⟩⟩, ⟨_, rfl, rfl, rfl⟩⟩

/-- Every row of the table: START and PIXEL with and without each fault, and a reserved word; and a PIXEL that
waits. -/
theorem witness_FsmTransitions :
    (flushing.waiting = none ∧ ∃ t, exec (.pixel 7 7 7 255) flushing = .next t ∧ t.waiting ≠ none) ∧
    (fresh 2 1).waiting = none ∧ idle.waiting = none ∧ finished.waiting = none ∧ failed.waiting = none ∧
    (∃ t, exec (.start 1 1) (fresh 2 1) = .next t) ∧ (∃ t, exec (.start 0 1) idle = .next t) ∧
    (∃ t, exec (.start 1 1) idle = .next t ∧ t.fsm = .active) ∧
    (∃ t, exec (.start 1 1) { idle with script := [some (.fail 0)] } = .next t ∧ t.fsm = .error) ∧
    (∃ t, exec (.pixel 0 0 0 255) (fresh 1 1) = .next t ∧ t.fsm = .done) ∧
    (∃ t, exec (.pixel 0 0 0 255) (fresh 2 1) = .next t ∧ t.fsm = .active) ∧
    (∃ t, exec (.pixel 0 0 0 255) finished = .next t ∧ t.fsm = .error) ∧
    (∃ t, exec (.reserved 0) failed = .next t ∧ t.cause = .protocol) :=
  ⟨⟨rfl, ⟨_, rfl, by decide⟩⟩, rfl, rfl, rfl, rfl, ⟨_, rfl⟩, ⟨_, rfl⟩, ⟨_, rfl, rfl⟩, ⟨_, rfl, rfl⟩,
    ⟨_, rfl, rfl⟩, ⟨_, rfl, rfl⟩, ⟨_, rfl, rfl⟩, ⟨_, rfl, rfl⟩⟩

/-- The host sends the one interaction `u`. -/
theorem sending_hostOnly (s : State) (u : Input) (h : u.ofHost = true) : (sending s u).HostOnly := by
  intro v hv
  simp only [sending, List.mem_singleton] at hv
  exact hv ▸ h

/-- With no command under way the waiting command is as it must be. -/
theorem waitInv_of_none {s : State} (h : s.waiting = none) : s.WaitInv := by
  intro v hv
  rw [h] at hv
  exact absurd hv (by simp)

/-- A block in ERROR that waits for the sink in a START. -/
def restarting : State := { failed with waiting := some { instr := .start 1 1, accepted := 0 } }

theorem restarting_waitInv (u : Input) : (sending restarting u).WaitInv := by
  intro v hv
  obtain rfl : { instr := .start 1 1, accepted := 0 } = v := by simpa [sending, restarting] using hv
  exact ⟨rfl, (by decide : 0 < (restarting.appendsOf (.start 1 1)).length), ⟨[], rfl⟩⟩

/-- Each way out: hardware reset, a START, and a START that waited. -/
theorem witness_OnlyStartOrResetLeavesError :
    ((sending failed .hardwareReset).HostOnly ∧ (sending failed .hardwareReset).WaitInv ∧
      (sending failed .hardwareReset).fsm = .error ∧
      ∃ t, step (sending failed .hardwareReset) = .next t ∧ t.fsm ≠ .error) ∧
    ((sending failed (.code (.command 0x1_00000001_00000001#66))).HostOnly ∧
      ∃ t, step (sending failed (.code (.command 0x1_00000001_00000001#66))) = .next t ∧ t.fsm ≠ .error) ∧
    ((sending restarting .readStatus).HostOnly ∧ (sending restarting .readStatus).WaitInv ∧
      (sending restarting .readStatus).fsm = .error ∧
      ∃ t, step (sending restarting .readStatus) = .next t ∧ t.fsm ≠ .error) :=
  ⟨⟨sending_hostOnly _ _ rfl, waitInv_of_none rfl, rfl, ⟨_, rfl, by decide⟩⟩,
    ⟨sending_hostOnly _ _ rfl, ⟨_, rfl, by decide⟩⟩,
    ⟨sending_hostOnly _ _ rfl, restarting_waitInv _, rfl, ⟨_, rfl, by decide⟩⟩⟩

/-- F7: the RGB chunk fails after two bytes; with an accepting sink it is whole. -/
theorem witness_FailedStepLeavesPrefix :
    (fresh 2 1).waiting = none ∧ (∃ t, exec (.pixel 128 0 0 255) { fresh 2 1 with script := [some (.fail 2)] } = .next t ∧
      t.fsm = .error ∧ t.out = [0xFE, 0x80]) ∧
    (∃ u, exec (.pixel 128 0 0 255) { fresh 2 1 with script := [some .accept, some .accept, some .accept] } =
      .next u ∧ u.fsm ≠ .error) :=
  ⟨rfl, ⟨_, rfl, rfl, rfl⟩, ⟨_, rfl, by decide⟩⟩

theorem witness_OutputOnlyGrows :
    (∃ t, step (sending idle (.code (.command 0x1_00000001_00000001#66))) = .next t) ∧
    0 < ({ idle with out := [0x71] } : State).out.length := ⟨⟨_, rfl⟩, by decide⟩

theorem witness_OnlyStartEmitsOutsideActive :
    (sending idle (.code (.command 0x2_00000000_00000000#66))).HostOnly ∧
    (sending idle (.code (.command 0x2_00000000_00000000#66))).WaitInv ∧ idle.fsm ≠ .active ∧
    decode (.command 0x2_00000000_00000000#66) = .ok (.pixel 0 0 0 0) ∧ idle.waiting = none ∧
    ∃ t, step (sending idle (.code (.command 0x2_00000000_00000000#66))) = .next t :=
  ⟨sending_hostOnly _ _ rfl, waitInv_of_none rfl, by decide, rfl, rfl, ⟨_, rfl⟩⟩

/-- P1. -/
theorem witness_DoneEndsWithEndMarker :
    (sending (fresh 1 1) (.code (.command 0x2_00000000_000000FF#66))).HostOnly ∧
    (sending (fresh 1 1) (.code (.command 0x2_00000000_000000FF#66))).WaitInv ∧ (fresh 1 1).fsm ≠ .done ∧
    ∃ t, step (sending (fresh 1 1) (.code (.command 0x2_00000000_000000FF#66))) = .next t ∧ t.fsm = .done :=
  ⟨sending_hostOnly _ _ rfl, waitInv_of_none rfl, by decide, ⟨_, rfl, rfl⟩⟩

theorem witness_AnsweredInstructionsComplete :
    (sending (running 1) .readStatus).HostOnly ∧ (running 1).SinkAnswers 3 := by
  refine ⟨sending_hostOnly _ _ rfl, ?_⟩
  intro k lt
  rw [accepting_accepts (running 1) rfl k lt]
  decide

/-- The last pixel of an encode with an open run: silent at its first, its second and its third append. -/
theorem witness_SilentSinkIsStuck :
    (encoding 3 1 2 red 1 [red]).waiting = none ∧
    ((encoding 3 1 2 red 1 [red]).appendsOf (.pixel 0 9 0 255)).length = 3 ∧
    (∀ sc ∈ [[none], [some .accept, none], [some SinkAnswer.accept, some .accept, none]],
      State.answerAt { encoding 3 1 2 red 1 [red] with script := sc } (sc.length - 1) = none) ∧
    State.SinkAccepts { encoding 3 1 2 red 1 [red] with script := [none] } 0 ∧
    State.SinkAccepts { encoding 3 1 2 red 1 [red] with script := [some .accept, none] } 1 ∧
    State.SinkAccepts { encoding 3 1 2 red 1 [red] with script := [some .accept, some .accept, none] } 2 :=
  ⟨rfl, by decide, by decide, accepts_none _, accepts_one rfl, accepts_two rfl rfl⟩

theorem witness_InstructionFrame :
    (∃ t, exec (.pixel 0 0 0 255) (running 1) = .next t) ∧ isStart (.pixel 0 0 0 255) = false := ⟨⟨_, rfl⟩, rfl⟩

theorem witness_StatusRegister :
    (sending failed .readStatus).waiting = none ∧ (sending failed .readStatus).input = .readStatus :: [] :=
  ⟨rfl, rfl⟩

/-- With no command under way, and while one waits for a silent sink. -/
theorem witness_HardwareResetLeaves :
    ((sending failed .hardwareReset).input = .hardwareReset :: [] ∧
      (sending failed .hardwareReset).waiting = none) ∧
    ((sending waitingPixel .hardwareReset).input = .hardwareReset :: [] ∧
      State.answerAt { sending waitingPixel .hardwareReset with script := [none] } 0 = none) :=
  ⟨⟨rfl, rfl⟩, ⟨rfl, rfl⟩⟩

/-- Each clause. -/
theorem witness_StepRunsDecodedInstruction :
    decode (.command 0x1_00000001_00000001#66) = .ok (.start 1 1) ∧
    (sending idle (.code (.command 0x1_00000001_00000001#66))).input =
      .code (.command 0x1_00000001_00000001#66) :: [] ∧
    decode (.record []) = .error .emptyRecord ∧
    (sending idle (.code (.record []))).input = .code (.record []) :: [] ∧ idle.input = [] ∧
    idle.waiting = none ∧ waitingPixel.waiting = some { instr := .pixel 7 7 7 255, accepted := 1 } ∧
    waitingPixel.answerAt 0 ≠ none :=
  ⟨rfl, rfl, rfl, rfl, rfl, rfl, rfl, by decide⟩

theorem witness_StepRunsEncodedInstruction : WellFormed (.run 61) ∧ idle.waiting = none := by decide

/-- An encode before its first pixel meets the invariant, whatever the host sends, the sink answers and OUT
holds, with no command under way or one as `WaitInv` says. -/
theorem fresh_inv (s : State) (same : SameBlock s (fresh 2 1)) (host : s.HostOnly) (wait : s.WaitInv) : s.Inv := by
  obtain ⟨cache, prev, run, count, width, height, fsm, cause⟩ := same
  refine ⟨host, wait, by rw [cause, fsm]; decide, fun _ => ⟨⟨?_, ?_, ?_, ?_, ?_, ?_⟩, ?_⟩, fun h => ?_⟩
  · rw [width, height]; decide
  · rw [run]; decide
  · rw [run, count]; decide
  · exact fun i => .inl (by simp [State.readCache, cache, fresh, encoding, State.initEncode])
  · exact fun _ => ⟨prev, cache⟩
  · exact fun h => absurd h (by rw [count]; decide)
  · rw [State.pixelTotal, count, width, height]; decide
  · exact absurd (fsm.symm.trans h) (by decide)

/-- The first pixel of that encode, waiting for the sink. -/
def waitingFirst : State :=
  { sending (fresh 2 1) .readStatus with waiting := some { instr := .pixel 128 0 0 255, accepted := 0 } }

/-- A state that takes a command, and one that goes on with a command that waited. -/
theorem witness_InvariantKept :
    ((sending (fresh 2 1) (.code (.command 0x2_00000000_000000FF#66))).Inv ∧
      ∃ t, step (sending (fresh 2 1) (.code (.command 0x2_00000000_000000FF#66))) = .next t) ∧
    (waitingFirst.Inv ∧ ∃ t, step waitingFirst = .next t) := by
  refine ⟨⟨fresh_inv _ ⟨rfl, rfl, rfl, rfl, rfl, rfl, rfl, rfl⟩ (sending_hostOnly _ _ rfl)
    (waitInv_of_none rfl), ⟨_, rfl⟩⟩, ⟨fresh_inv _ ⟨rfl, rfl, rfl, rfl, rfl, rfl, rfl, rfl⟩
    (sending_hostOnly (fresh 2 1) .readStatus rfl) ?_, ⟨_, rfl⟩⟩⟩
  intro v hv
  obtain rfl : { instr := .pixel 128 0 0 255, accepted := 0 } = v := by simpa [waitingFirst] using hv
  exact ⟨rfl, by decide, ⟨[], rfl⟩⟩

/-- A 1 by 1 image needs four accepted appends at most. -/
theorem witness_WholeEncode :
    idle.waiting = none ∧ idle.fsm ≠ .active ∧ (1#32 ≠ 0#32) ∧ [Pixel.opaqueBlack].length = (1#32).toNat * (1#32).toNat ∧
    State.SinkAccepts { idle with script := some .accept :: accepting } (3 * [Pixel.opaqueBlack].length + 1) := by
  refine ⟨rfl, by decide, by decide, by decide, ?_⟩
  intro k lt
  have lt : k < 4 := lt
  match k, lt with
  | 0, _ => rfl
  | 1, _ => rfl
  | 2, _ => rfl
  | 3, _ => rfl

/-- The third append of a last pixel, the end marker, fails: F9 with an open run before it. -/
theorem witness_PixelSinkFailure :
    (encoding 3 1 2 red 1 [red]).waiting = none ∧ (encoding 3 1 2 red 1 [red]).fsm = .active ∧
    2 < (pixelAppends (encoding 3 1 2 red 1 [red]) { r := 0, g := 9, b := 0, a := 255 }).length ∧
    State.SinkAccepts { encoding 3 1 2 red 1 [red] with script := [some .accept, some .accept, some (.fail 0)] } 2 ∧
    State.answerAt { encoding 3 1 2 red 1 [red] with script := [some .accept, some .accept, some (.fail 0)] } 2 =
      some (.fail 0) := ⟨rfl, rfl, by decide, accepts_two rfl rfl, rfl⟩

/-- Each clause: the host reads STATUS; the host sends a command, or nothing. -/
theorem witness_WaitingTakesNoCommand :
    (∀ u ∈ [Input.readStatus, .code (.command 0)],
      State.waiting { sending waitingPixel u with script := [none] } =
        some { instr := .pixel 7 7 7 255, accepted := 1 } ∧
      State.answerAt { sending waitingPixel u with script := [none] } 0 = none) ∧
    (sending waitingPixel .readStatus).input = .readStatus :: [] ∧
    (sending waitingPixel (.code (.command 0))).input ≠ .readStatus :: [] ∧ waitingPixel.input = [] := by decide

/-- RU10's third pixel, silent once at its chunk. -/
theorem witness_ResumedStepIsTheSame :
    State.waiting { flushing with script := [some .accept, none, some .accept, none, none] } = none ∧
    State.script { flushing with script := [some .accept, none, some .accept, none, none] } =
      List.replicate 1 (some .accept) ++ none :: some .accept :: [none, none] ∧
    2 ≤ [(none : Option SinkAnswer), none].length ∧
    ∃ u, exec (.pixel 7 7 7 255) { flushing with script := [some .accept, none, some .accept, none, none] } =
      .next u ∧ u.waiting ≠ none := ⟨rfl, rfl, by decide, ⟨_, rfl, by decide⟩⟩

end Sys2Proof.Tests
end

section
/-! START outside ACTIVE (spec/40_header.md R100, R102): how its step splits on the dimension check, and the
statement that only W = 0 and H = 0 fail it. -/

namespace Sys2Proof.Machine

/-! The dimension check (R102). -/

/-- DIM_MAX is the largest 32-bit value (R7), so the upper bounds of R102 reject nothing. -/
theorem dimensionsValid_iff (w h : BitVec 32) : dimensionsValid w h = true ↔ w ≠ 0 ∧ h ≠ 0 := by
  have nonzero : ∀ v : BitVec 32, 1 ≤ v.toNat ↔ v ≠ 0 := fun v => by
    simp [Nat.one_le_iff_ne_zero, BitVec.toNat_eq]
  have bounded : ∀ v : BitVec 32, v.toNat ≤ Config.dimMax := fun v => Nat.le_pred_of_lt v.isLt
  simp [dimensionsValid, bounded, nonzero]

theorem dimensionsValid_eq_false_iff (w h : BitVec 32) :
    dimensionsValid w h = false ↔ w = 0 ∨ h = 0 := by
  rw [← Bool.not_eq_true, dimensionsValid_iff]
  tauto

/-! The step of a START outside ACTIVE (R100). -/

theorem exec_start_of_not_active {w h : BitVec 32} {s : State} (na : s.fsm ≠ .active) :
    exec (.start w h) s = (beginEncode w h s).finish (.start w h) s := by
  simp [exec, execStart, na]

/-- Rejected dimensions raise InvalidInput at once (R102). -/
theorem exec_start_of_invalid {w h : BitVec 32} {s : State} (na : s.fsm ≠ .active)
    (bad : dimensionsValid w h = false) :
    exec (.start w h) s = .next (s.clearCause.raise (.invalidInput w h)).settle := by
  simp [exec_start_of_not_active na, beginEncode, bad]

/-- The fresh encode of an accepted START makes one append, the header, and then enters ACTIVE (R100, R101). -/
theorem beginEncode_emits {w h : BitVec 32} {s : State} (ok : dimensionsValid w h = true) :
    (beginEncode w h s).Emits (s.clearCause.initEncode w h) [headerBytes w h]
      (((s.clearCause.initEncode w h).appended (headerBytes w h)).setFsm .active) := by
  rw [beginEncode, if_pos ok]
  exact (writeHeader_emits w h _).andDo (.setFsm _ _) rfl

/-- A completed START with accepted dimensions shows NONE, or SINK_FAILURE when its header append failed
(R100, R104). -/
theorem start_cause_of_valid {w h : BitVec 32} {s t : State} (na : s.fsm ≠ .active)
    (ok : dimensionsValid w h = true) (e : exec (.start w h) s = .next t) (complete : t.waiting = none) :
    t.cause = .none ∨ t.cause = .sinkFailure := by
  rw [exec_start_of_not_active na] at e
  obtain ⟨-, e'⟩ | ⟨m, k, u, -, -, -, -, e'⟩ | ⟨m, u, -, -, -, -, e'⟩ :=
    (beginEncode_emits ok).finish (.start w h) s
  all_goals
    obtain rfl := Host.Outcome.next.inj (e'.symm.trans e)
  · left; simp
  · right; rfl
  · simp at complete

/-- Settles O15: where the dimension check rejects, the step is the InvalidInput fault; where it accepts, a
completed step ends with cause NONE or SINK_FAILURE. -/
theorem onlyZeroDimensionsInvalid : Obligations.OnlyZeroDimensionsInvalid := by
  unfold Obligations.OnlyZeroDimensionsInvalid
  intro w h s t na e complete
  rw [← dimensionsValid_eq_false_iff]
  constructor
  · intro invalid
    by_contra ok
    obtain c | c := start_cause_of_valid na (Bool.eq_true_of_not_eq_false ok) e complete
    all_goals rw [c] at invalid; cases invalid
  · intro bad
    obtain rfl := Host.Outcome.next.inj ((exec_start_of_invalid na bad).symm.trans e)
    rfl

end Sys2Proof.Machine
end

section
/-! SUPPORT. States compared field by field: the block's eight elements (R20) on one side, everything outside the
block (the sink, the host, the model's own fields) on the other. -/

namespace Sys2Proof.Machine

theorem SameBlock.refl (s : State) : SameBlock s s := ⟨rfl, rfl, rfl, rfl, rfl, rfl, rfl, rfl⟩

theorem SameBlock.symm {s t : State} (h : SameBlock s t) : SameBlock t s := by
  obtain ⟨h1, h2, h3, h4, h5, h6, h7, h8⟩ := h
  exact ⟨h1.symm, h2.symm, h3.symm, h4.symm, h5.symm, h6.symm, h7.symm, h8.symm⟩

theorem SameBlock.trans {s t u : State} (h : SameBlock s t) (k : SameBlock t u) : SameBlock s u := by
  obtain ⟨h1, h2, h3, h4, h5, h6, h7, h8⟩ := h
  obtain ⟨k1, k2, k3, k4, k5, k6, k7, k8⟩ := k
  exact ⟨h1.trans k1, h2.trans k2, h3.trans k3, h4.trans k4, h5.trans k5, h6.trans k6, h7.trans k7,
    h8.trans k8⟩

/-- Everything outside the block is the same: OUT, the host's side, the sink's turns and the model's own fields. -/
def SameOutside (s t : State) : Prop :=
  s.out = t.out ∧ s.input = t.input ∧ s.waiting = t.waiting ∧ s.script = t.script ∧
    s.turns = t.turns ∧ s.draws = t.draws ∧ s.statusReads = t.statusReads

/-- The two sides are the whole state. -/
theorem State.eq_of_same {s t : State} (block : SameBlock s t) (outside : SameOutside s t) : s = t := by
  obtain ⟨_, _, _, _, _, _, _, _⟩ := block
  obtain ⟨_, _, _, _, _, _, _⟩ := outside
  cases s; cases t; simp_all

/-- A state with the same block differs from `s` outside the block only. -/
theorem SameBlock.exists_eq {s t : State} (h : SameBlock s t) :
    t = { s with
      out := t.out, input := t.input, waiting := t.waiting, script := t.script, turns := t.turns
      draws := t.draws, statusReads := t.statusReads } :=
  State.eq_of_same h.symm ⟨rfl, rfl, rfl, rfl, rfl, rfl, rfl⟩

/-- The appends of an instruction are a function of the block alone. -/
theorem SameBlock.appendsOf_eq {s t : State} (h : SameBlock s t) (i : Instr) :
    t.appendsOf i = s.appendsOf i := by
  rw [h.exists_eq]; rfl

theorem State.cacheHit_congr {s t : State} (h : t.cache = s.cache) (p : Pixel) :
    t.cacheHit p = s.cacheHit p := by
  cases s; cases t; cases h; rfl

end Sys2Proof.Machine
end

section
/-! SUPPORT. The appends of a whole PIXEL step and the block it reaches (R113 to R118, R140), put together from the
parts in Laws. -/

namespace Sys2Proof.Machine

/-- State writes in front of an emitting part (R12). -/
theorem Progress.Emits.after {p : Progress} {s v t : State} {ps : List (List Byte)}
    (h : p.Emits v ps t) (ext : Extends s 0 [] v) (g : v.granted = s.granted) : p.Emits s ps t :=
  ((Progress.Emits.goOn s).andDo (w := fun _ => v) ext g).andThen (f := fun _ => p) h

/-- The flush of a run, open or not (R116, R140). -/
theorem flushRun_emits (s : State) :
    ∃ t, (flushRun s).Emits s (flushAppends s.run) t ∧ SameBlock t (s.setRun 0) := by
  by_cases h : s.run = 0
  · rw [flushRun_closed h, h]
    exact ⟨s, .goOn s, rfl, rfl, h, rfl, rfl, rfl, rfl, rfl⟩
  · rw [flushRun_open h, flushAppends_open _ h]
    exact ⟨_, emitRun_emits s.run s, by simp [SameBlock]⟩

theorem finalize_emits (s : State) :
    ∃ t, (finalize s).Emits s (finalizerAppends s.run) t ∧ SameBlock t ((s.setRun 0).setFsm .done) := by
  by_cases h : s.run = 0
  · exact ⟨_, finalize_closed h, by simp [SameBlock, h]⟩
  · exact ⟨_, finalize_open h, by simp [SameBlock]⟩

/-- The block after the decision of a PIXEL step: the slot and the run, nothing else (R113 to R116). -/
def classified (s : State) (p : Pixel) : State :=
  { s with cache := (pixelResult s p).cache, run := runAfter s p }

/-- Step 1, the run continuation (R115). -/
theorem continueRun_emits {s : State} {p : Pixel} (eq : p = s.prev) :
    ∃ t, (continueRun p (pixelHash p) s).Emits s (ownAppends s p) t ∧ SameBlock t (classified s p) := by
  have ext : Extends s 0 [] ((s.setRun (s.run + 1)).writeCache (pixelHash p) p) := by simp [Extends]
  by_cases cap : s.run.toNat = 61
  · rw [continueRun_at_cap _ _ cap]
    have own : ownAppends s p = [runBytes (Config.runMax - 1)] := by simp [ownAppends, eq, cap]; decide
    rw [own]
    exact ⟨_, (emitRun_emits _ _).after ext rfl, by simp [SameBlock, classified, pixelResult, runAfter, eq, cap]⟩
  · rw [continueRun_below_cap _ _ cap]
    have own : ownAppends s p = [] := by simp [ownAppends, eq, cap]
    rw [own]
    exact ⟨_, (Progress.Emits.goOn _).after ext rfl,
      by simp [SameBlock, classified, pixelResult, runAfter, eq, cap]⟩

/-- Steps 2 to 7: the flush and the pixel's own chunk (R114, R116). -/
theorem flushThenChunk_emits {s : State} {p : Pixel} (ne : p ≠ s.prev) :
    ∃ t, ((flushRun s).andThen fun u => emitChunk p (pixelHash p) u).Emits s (ownAppends s p) t ∧
      SameBlock t (classified s p) := by
  obtain ⟨u, flush, same⟩ := flushRun_emits s
  obtain ⟨cache, prev, run, count, width, height, fsm, cause⟩ := same
  have hit : u.cacheHit p = s.cacheHit p := State.cacheHit_congr cache p
  have chunk := emitChunk_emits p u
  rw [hit, show u.prev = s.prev from prev] at chunk
  have own : ownAppends s p =
      flushAppends s.run ++ [recordBytes (chunkFor p s.prev (s.cacheHit p))] := by simp [ownAppends, ne]
  rw [own]
  refine ⟨_, flush.andThen chunk, ?_⟩
  simp_all [SameBlock, classified, pixelResult, runAfter]

theorem classify_emits (s : State) (p : Pixel) :
    ∃ t, (classify p s).Emits s (ownAppends s p) t ∧ SameBlock t (classified s p) := by
  by_cases eq : p = s.prev
  · have : classify p s = continueRun p (pixelHash p) s := by simp [classify, State.samePixel, eq]
    rw [this]; exact continueRun_emits eq
  · have : classify p s = (flushRun s).andThen fun u => emitChunk p (pixelHash p) u := by
      simp [classify, State.samePixel, eq]
    rw [this]; exact flushThenChunk_emits eq

/-- The end of a PIXEL step, behind the decision (R117, R118). -/
theorem endPixel_emits {s t : State} {p : Pixel} (active : s.fsm = .active)
    (same : SameBlock t (classified s p)) :
    ∃ u, (endPixel p t).Emits t (lastAppends s p) u ∧ SameBlock u (pixelResult s p) := by
  have ext : Extends t 0 [] (t.advance p) := .advance t p
  obtain ⟨cache, prev, run, count, width, height, fsm, cause⟩ := same
  simp only [classified] at cache prev run count width height fsm cause
  have complete : (t.advance p).imageComplete = isLastPixel s := by
    simp [State.imageComplete, isLastPixel, State.pixelTotal, *]
  unfold endPixel lastAppends
  rw [complete]
  cases last : isLastPixel s
  · exact ⟨_, (Progress.Emits.goOn _).after ext rfl, by simp_all [SameBlock, pixelResult]⟩
  · obtain ⟨u, fin, same'⟩ := finalize_emits (t.advance p)
    rw [State.advance_run, run] at fin
    exact ⟨u, fin.after ext rfl, same'.trans (by simp_all [SameBlock, pixelResult])⟩

/-- The whole PIXEL step in ACTIVE makes `pixelAppends` and reaches the block of `pixelResult` (R113). -/
theorem pixelStep_emits {s : State} (p : Pixel) (active : s.fsm = .active) :
    ∃ t, ((classify p s).andThen (endPixel p)).Emits s (pixelAppends s p) t ∧
      SameBlock t (pixelResult s p) := by
  obtain ⟨t, own, same⟩ := classify_emits s p
  obtain ⟨u, last, same'⟩ := endPixel_emits active same
  exact ⟨u, own.andThen last, same'⟩

end Sys2Proof.Machine
end

section
/-! SUPPORT. What the step of any instruction can do, said once: a fault before the first append, or the appends of
`State.appendsOf` with the block of `State.resultOf` behind them (R12, R52, R53, R154). -/

namespace Sys2Proof.Machine

/-- The fault an instruction raises before any append (R151, R153, R154). -/
def State.faultOf (s : State) : Instr → Option FaultInfo
  | .start w h =>
    if s.fsm = .active then some (.protocolError .startWhileActive)
    else if dimensionsValid w h then none else some (.invalidInput w h)
  | .pixel _ _ _ _ =>
    if s.fsm = .idle ∨ s.fsm = .done then some (.protocolError .pixelNotActive) else none
  | .reserved _ => if s.fsm = .error then none else some (.protocolError .reserved)
  | _ => none

/-- Where the appends of an instruction begin: START first writes the fresh encoder state (R100). -/
def State.begun (s : State) : Instr → State
  | .start w h => s.clearCause.initEncode w h
  | _ => s

/-- The block behind an instruction that raises no fault, its appends all accepted. -/
def State.resultOf (s : State) : Instr → State
  | .start w h => (s.clearCause.initEncode w h).setFsm .active
  | .pixel r g b a => if s.fsm = .active then pixelResult s { r := r, g := g, b := b, a := a } else s
  | .reserved _ | .index _ | .header _ _ => s
  | .diff dr dg db =>
    s.writeCache (pixelHash (recoverDiff s.prev dr dg db)) (recoverDiff s.prev dr dg db)
  | .luma dg drdg dbdg =>
    s.writeCache (pixelHash (recoverLuma s.prev dg drdg dbdg)) (recoverLuma s.prev dg drdg dbdg)
  | .run _ => s.setRun 0
  | .rgb r g b => s.writeCache (pixelHash (recoverRgb s.prev r g b)) (recoverRgb s.prev r g b)
  | .rgba r g b a =>
    s.writeCache (pixelHash { r := r, g := g, b := b, a := a }) { r := r, g := g, b := b, a := a }
  | .endMarker => (s.setRun 0).setFsm .done

/-! Nothing outside the block changes before the appends. -/

@[simp] theorem State.begun_out (s : State) (i : Instr) : (s.begun i).out = s.out := by cases i <;> rfl

@[simp] theorem State.begun_input (s : State) (i : Instr) : (s.begun i).input = s.input := by
  cases i <;> rfl

@[simp] theorem State.begun_script (s : State) (i : Instr) : (s.begun i).script = s.script := by
  cases i <;> rfl

@[simp] theorem State.begun_turns (s : State) (i : Instr) : (s.begun i).turns = s.turns := by
  cases i <;> rfl

@[simp] theorem State.begun_draws (s : State) (i : Instr) : (s.begun i).draws = s.draws := by
  cases i <;> rfl

@[simp] theorem State.begun_statusReads (s : State) (i : Instr) :
    (s.begun i).statusReads = s.statusReads := by
  cases i <;> rfl

@[simp] theorem State.begun_granted (s : State) (i : Instr) : (s.begun i).granted = s.granted := by
  cases i <;> rfl

@[simp] theorem State.begun_answerAt (s : State) (i : Instr) (k : Nat) :
    (s.begun i).answerAt k = s.answerAt k := by
  cases i <;> rfl

@[simp] theorem State.begun_sinkAccepts (s : State) (i : Instr) (n : Nat) :
    (s.begun i).SinkAccepts n ↔ s.SinkAccepts n := by
  simp [State.SinkAccepts]

theorem State.begun_of_not_start (s : State) {i : Instr} (h : isStart i = false) : s.begun i = s := by
  cases i with
  | start w h' => cases h
  | _ => rfl

/-! The fields that DIFF and LUMA pack are their operands again (R79, R80, R85). -/

theorem diffBytesOf_recoverDiff (q : Pixel) (dr dg db : BitVec 2) :
    diffBytesOf (recoverDiff q dr dg db) q = diffBytes dr dg db := by
  have field : ∀ (x : Byte) (f : BitVec 2), (biasedDelta (recoverDiffChannel x f) x 2).setWidth 2 = f :=
    fun x f => by
      have : biasedDelta (recoverDiffChannel x f) x 2 = f.setWidth 8 := by
        simp only [biasedDelta, recoverDiffChannel]; bv_omega
      rw [this]; simp
  simp only [diffBytesOf, diffFields, recoverDiff, field]

theorem lumaBytesOf_recoverLuma (q : Pixel) (dg : BitVec 6) (drdg dbdg : BitVec 4) :
    lumaBytesOf (recoverLuma q dg drdg dbdg) q = lumaBytes dg drdg dbdg := by
  have green : (biasedDelta (q.g + (dg.setWidth 8 - 32)) q.g 32).setWidth 6 = dg := by
    have : biasedDelta (q.g + (dg.setWidth 8 - 32)) q.g 32 = dg.setWidth 8 := by
      simp only [biasedDelta]; bv_omega
    rw [this]; simp
  have other : ∀ (x : Byte) (f : BitVec 4),
      (biasedDelta (x + (dg.setWidth 8 - 32 + f.setWidth 8 - 8) - x) (q.g + (dg.setWidth 8 - 32) - q.g)
        8).setWidth 4 = f := fun x f => by
    have : biasedDelta (x + (dg.setWidth 8 - 32 + f.setWidth 8 - 8) - x)
        (q.g + (dg.setWidth 8 - 32) - q.g) 8 = f.setWidth 8 := by
      simp only [biasedDelta]; bv_omega
    rw [this]; simp
  simp only [lumaBytesOf, lumaFields, recoverLuma, green, other]

/-! The step of an instruction. -/

/-- A fault before the first append ends the step (R156). -/
theorem exec_of_fault {i : Instr} {s : State} {f : FaultInfo} (h : s.faultOf i = some f) :
    exec i s = .next (s.raise f).settle := by
  cases i with
  | start w h' =>
    simp only [State.faultOf] at h
    split at h
    · rename_i active; cases h; simp [exec, execStart, active]
    · rename_i inactive
      split at h
      · cases h
      · rename_i bad; cases h
        exact exec_start_of_invalid inactive (Bool.eq_false_of_not_eq_true bad)
  | pixel r g b a =>
    simp only [State.faultOf] at h
    split at h
    · rename_i misused; cases h
      obtain m | m := misused <;> simp [exec, execPixel, m]
    · cases h
  | reserved word =>
    simp only [State.faultOf] at h
    split at h
    · cases h
    · rename_i outside; cases h; simp [exec, execReserved, outside]
  | _ => cases h

/-- The step is the appends of `State.appendsOf` one after the other, and the block of `State.resultOf` behind
them. -/
def Performs (i : Instr) (s : State) : Prop :=
  ∃ (p : Progress) (t : State), exec i s = p.finish i s ∧ p.Emits (s.begun i) (s.appendsOf i) t ∧
    SameBlock t (s.resultOf i)

theorem State.faultOf_start_eq_none_iff (w h : BitVec 32) (s : State) :
    s.faultOf (.start w h) = none ↔ s.fsm ≠ .active ∧ dimensionsValid w h = true := by
  by_cases active : s.fsm = .active <;> simp [State.faultOf, active]

theorem State.appendsOf_start {w h : BitVec 32} {s : State} (nf : s.faultOf (.start w h) = none) :
    s.appendsOf (.start w h) = [headerBytes w h] :=
  if_pos ((s.faultOf_start_eq_none_iff w h).1 nf)

theorem exec_start_emits {w h : BitVec 32} {s : State} (nf : s.faultOf (.start w h) = none) :
    Performs (.start w h) s := by
  obtain ⟨inactive, ok⟩ := (s.faultOf_start_eq_none_iff w h).1 nf
  rw [Performs, State.appendsOf_start nf]
  exact ⟨_, _, exec_start_of_not_active inactive, beginEncode_emits ok, by simp [SameBlock, State.resultOf]⟩

theorem State.appendsOf_pixel {s : State} (active : s.fsm = .active) (r g b a : Byte) :
    s.appendsOf (.pixel r g b a) = pixelAppends s { r := r, g := g, b := b, a := a } := if_pos active

theorem State.resultOf_pixel {s : State} (active : s.fsm = .active) (r g b a : Byte) :
    s.resultOf (.pixel r g b a) = pixelResult s { r := r, g := g, b := b, a := a } := if_pos active

theorem exec_pixel_of_active {r g b a : Byte} {s : State} (active : s.fsm = .active) :
    exec (.pixel r g b a) s =
      ((classify { r := r, g := g, b := b, a := a } s).andThen
        (endPixel { r := r, g := g, b := b, a := a })).finish (.pixel r g b a) s := by
  simp only [exec, execPixel, active]

theorem exec_pixel_of_error {r g b a : Byte} {s : State} (error : s.fsm = .error) :
    exec (.pixel r g b a) s = (Progress.goOn s).finish (.pixel r g b a) s := by
  simp only [exec, execPixel, error]

theorem exec_pixel_emits {r g b a : Byte} {s : State} (nf : s.faultOf (.pixel r g b a) = none) :
    Performs (.pixel r g b a) s := by
  cases fsm : s.fsm
  case active =>
    obtain ⟨t, em, same⟩ := pixelStep_emits { r := r, g := g, b := b, a := a } fsm
    rw [Performs, State.appendsOf_pixel fsm, State.resultOf_pixel fsm]
    exact ⟨_, t, exec_pixel_of_active fsm, em, same⟩
  case error =>
    have appends : s.appendsOf (.pixel r g b a) = [] := by simp [State.appendsOf, fsm]
    have result : s.resultOf (.pixel r g b a) = s := by simp [State.resultOf, fsm]
    rw [Performs, appends, result]
    exact ⟨_, s, exec_pixel_of_error fsm, .goOn s, .refl s⟩
  case idle => simp [State.faultOf, fsm] at nf
  case done => simp [State.faultOf, fsm] at nf

/-- Without a fault before them, every instruction makes its appends. -/
theorem exec_emits {i : Instr} {s : State} (nf : s.faultOf i = none) : Performs i s := by
  cases i with
  | start w h => exact exec_start_emits nf
  | pixel r g b a => exact exec_pixel_emits nf
  | reserved word =>
    have absorbed : s.fsm = .error := by
      by_contra h; simp [State.faultOf, h] at nf
    exact ⟨_, s, by simp only [exec, execReserved, absorbed, if_pos], .goOn s, .refl s⟩
  | index i => exact ⟨_, _, rfl, emitIndex_emits i s, by simp [SameBlock, State.resultOf]⟩
  | diff dr dg db =>
    have em := emitDiff_emits (recoverDiff s.prev dr dg db) s.prev (pixelHash (recoverDiff s.prev dr dg db)) s
    rw [diffBytesOf_recoverDiff] at em
    exact ⟨_, _, rfl, em, by simp [SameBlock, State.resultOf]⟩
  | luma dg drdg dbdg =>
    have em := emitLuma_emits (recoverLuma s.prev dg drdg dbdg) s.prev
      (pixelHash (recoverLuma s.prev dg drdg dbdg)) s
    rw [lumaBytesOf_recoverLuma] at em
    exact ⟨_, _, rfl, em, by simp [SameBlock, State.resultOf]⟩
  | run n =>
    have em := emitRun_emits (n + 1) s
    rw [BitVec.add_sub_cancel] at em
    exact ⟨_, _, rfl, em, by simp [SameBlock, State.resultOf]⟩
  | rgb r g b =>
    exact ⟨_, _, rfl, emitRgb_emits (recoverRgb s.prev r g b) _ s, by simp [SameBlock, State.resultOf]⟩
  | rgba r g b a => exact ⟨_, _, rfl, emitRgba_emits _ _ s, by simp [SameBlock, State.resultOf]⟩
  | header w h => exact ⟨_, _, rfl, writeHeader_emits w h s, by simp [SameBlock, State.resultOf]⟩
  | endMarker =>
    obtain ⟨t, em, same⟩ := finalize_emits s
    exact ⟨_, t, rfl, em, same⟩

/-- The four ways the step of an instruction can end: in a fault before the first append; complete, its appends
accepted; in SINK_FAILURE at the first append not accepted; or waiting there for the sink (R12, R52, R53, R156). The
first `granted` appends of a resumed step are not offered again. -/
inductive ExecEnds (i : Instr) (s : State) : State → Prop where
  | faulted (f : FaultInfo) (fault : s.faultOf i = some f) : ExecEnds i s (s.raise f).settle
  | completed (t : State) (nf : s.faultOf i = none)
      (accepts : s.SinkAccepts ((s.appendsOf i).length - s.granted))
      (ext : Extends (s.begun i) ((s.appendsOf i).length - s.granted) ((s.appendsOf i).drop s.granted).flatten t)
      (same : SameBlock t (s.resultOf i)) : ExecEnds i s t.settle
  | failed (m k : Nat) (u : State) (nf : s.faultOf i = none)
      (lt : m < (s.appendsOf i).length - s.granted) (accepts : s.SinkAccepts m)
      (fails : s.answerAt m = some (.fail k))
      (ext : Extends (s.begun i) (m + 1) ((((s.appendsOf i).drop s.granted).take m).flatten ++
        ((s.appendsOf i).getD (s.granted + m) []).take k) u) : ExecEnds i s (u.raise (.sinkFailure k)).settle
  | waits (m : Nat) (u : State) (nf : s.faultOf i = none)
      (lt : m < (s.appendsOf i).length - s.granted) (accepts : s.SinkAccepts m) (silent : s.answerAt m = none)
      (ext : Extends (s.begun i) m (((s.appendsOf i).drop s.granted).take m).flatten u) : ExecEnds i s (s.suspend i u)

/-- Every step gives a next state, in one of the four ways. -/
theorem exec_next (i : Instr) (s : State) : ∃ t, exec i s = .next t ∧ ExecEnds i s t := by
  cases fault : s.faultOf i with
  | some f => exact ⟨_, exec_of_fault fault, .faulted f fault⟩
  | none =>
    obtain ⟨p, t, e, em, same⟩ := exec_emits fault
    have ext := em.1
    rw [e]
    obtain ⟨acc, e'⟩ | ⟨m, k, u, lt, acc, ans, ext', e'⟩ | ⟨m, u, lt, acc, ans, ext', e'⟩ := em.finish i s
    all_goals
      simp only [State.begun_granted, State.begun_sinkAccepts, State.begun_answerAt] at *
    · exact ⟨_, e', .completed t fault acc ext same⟩
    · exact ⟨_, e', .failed m k u fault lt acc ans ext'⟩
    · exact ⟨_, e', .waits m u fault lt acc ans ext'⟩

theorem exec_ends {i : Instr} {s t : State} (e : exec i s = .next t) : ExecEnds i s t := by
  obtain ⟨t', e', ends⟩ := exec_next i s
  obtain rfl := Host.Outcome.next.inj (e'.symm.trans e)
  exact ends

/-- With an accepting sink and no fault, the step completes. -/
theorem exec_of_accepts {i : Instr} {s : State} (nf : s.faultOf i = none)
    (accepts : s.SinkAccepts ((s.appendsOf i).length - s.granted)) :
    ∃ t, exec i s = .next t.settle ∧ SameBlock t (s.resultOf i) ∧
      Extends (s.begun i) ((s.appendsOf i).length - s.granted) ((s.appendsOf i).drop s.granted).flatten t := by
  obtain ⟨p, t, e, em, same⟩ := exec_emits nf
  have ext := em.1
  rw [State.begun_granted] at ext
  exact ⟨t, e.trans (em.finish_of_accepts (by simpa using accepts) i s), same, ext⟩

end Sys2Proof.Machine
end

section
/-! SUPPORT. What a step of the machine can do, said once (R53, R59, R61, R166, R178). -/

namespace Sys2Proof.Machine

/-- The ways a step of the machine can end. `v` is the state the host's interaction is performed in: `s`, or `s`
with a turn of a silent sink used up (R53; log 21). -/
inductive StepEnds (s : State) : State → Prop where
  | idles (new : s.waiting = none) (nothing : s.input = []) : StepEnds s s
  | runs (c : Code) (rest : List Input) (i : Instr) (t : State) (new : s.waiting = none)
      (next : s.input = .code c :: rest) (decodes : decode c = .ok i) (e : exec i s.takeInput = .next t) :
      StepEnds s t
  | resumes (w : Waiting) (t : State) (under : s.waiting = some w) (answered : s.answerAt 0 ≠ none)
      (e : exec w.instr s = .next t) : StepEnds s t
  | reads (v : State) (rest : List Input) (turn : v = s ∨ v = s.takeAnswer)
      (next : s.input = .readStatus :: rest) : StepEnds s v.takeInput.reportStatus
  | resets (v : State) (rest : List Input) (turn : v = s ∨ v = s.takeAnswer)
      (next : s.input = .hardwareReset :: rest) : StepEnds s v.takeInput.hardwareReset
  | stalls (w : Waiting) (under : s.waiting = some w) (silent : s.answerAt 0 = none) : StepEnds s s.takeAnswer

theorem performNext_ends {s t : State} (new : s.waiting = none) (e : performNext s = .next t) :
    StepEnds s t := by
  unfold performNext at e
  match next : s.input with
  | [] => rw [next] at e; cases e; exact .idles new next
  | .readStatus :: rest => rw [next] at e; cases e; exact .reads s rest (.inl rfl) next
  | .hardwareReset :: rest => rw [next] at e; cases e; exact .resets s rest (.inl rfl) next
  | .code c :: rest =>
    rw [next] at e
    simp only [perform, performCode] at e
    cases decodes : decode c with
    | error _ => rw [decodes] at e; cases e
    | ok i => rw [decodes] at e; exact .runs c rest i t new next decodes e

theorem continueWaiting_ends {s t : State} {w : Waiting} (under : s.waiting = some w)
    (e : continueWaiting w s = .next t) : StepEnds s t := by
  unfold continueWaiting at e
  cases ans : s.answerAt 0 with
  | some a => rw [ans] at e; exact .resumes w t under (by simp [ans]) e
  | none =>
    rw [ans] at e
    simp only [performWaiting, State.takeAnswer_input] at e
    match next : s.input with
    | [] => rw [next] at e; cases e; exact .stalls w under ans
    | .code c :: rest => rw [next] at e; cases e; exact .stalls w under ans
    | .readStatus :: rest => rw [next] at e; cases e; exact .reads _ rest (.inr rfl) next
    | .hardwareReset :: rest => rw [next] at e; cases e; exact .resets _ rest (.inr rfl) next

theorem step_ends {s t : State} (e : step s = .next t) : StepEnds s t := by
  unfold step performStep at e
  cases under : s.waiting with
  | none => rw [under] at e; exact performNext_ends under e
  | some w => rw [under] at e; exact continueWaiting_ends under e

/-! The host (R178). -/

theorem State.HostOnly.of_tail {s t : State} (host : s.HostOnly) (h : t.input = s.input.tail) : t.HostOnly :=
  fun u mem => host u (List.mem_of_mem_tail (h ▸ mem))

theorem State.HostOnly.of_eq {s t : State} (host : s.HostOnly) (h : t.input = s.input) : t.HostOnly :=
  fun u mem => host u (h ▸ mem)

theorem isCommand_decodeCommand (word : CommandWord) : isCommand (decodeCommand word) = true := by
  unfold decodeCommand
  split
  · rfl
  · split <;> rfl

/-- What the host sends as a code is a command (R70, R178). -/
theorem State.HostOnly.isCommand {s : State} {c : Code} {rest : List Input} {i : Instr} (host : s.HostOnly)
    (next : s.input = .code c :: rest) (decodes : decode c = .ok i) : isCommand i = true := by
  have sent : Input.ofHost (.code c) = true := host _ (by simp [next])
  cases c with
  | command word => cases decodes; exact isCommand_decodeCommand word
  | record bs => cases sent

end Sys2Proof.Machine
end

section
/-! The invariant of the machine (R26, R29, R31 to R33, R53): every step keeps it. -/

namespace Sys2Proof.Machine

/-- What `State.Inv` says of the block alone. -/
def State.BlockInv (s : State) : Prop :=
  (s.cause = .none ↔ s.fsm ≠ .error) ∧
    (s.fsm = .active → s.EncodeInv ∧ s.count.toNat < s.pixelTotal) ∧
    (s.fsm = .done → s.EncodeInv ∧ s.count.toNat = s.pixelTotal ∧ s.run = 0)

theorem State.inv_iff (s : State) : s.Inv ↔ s.HostOnly ∧ s.WaitInv ∧ s.BlockInv := Iff.rfl

theorem SameBlock.blockInv {s t : State} (h : SameBlock s t) (inv : s.BlockInv) : t.BlockInv := by
  rw [h.exists_eq]; exact inv

/-- Outside an encode only the cause is constrained (R29). -/
theorem State.blockInv_of_error {s : State} (fsm : s.fsm = .error) (cause : s.cause ≠ .none) : s.BlockInv := by
  simp [State.BlockInv, fsm, cause]

theorem State.blockInv_of_idle {s : State} (fsm : s.fsm = .idle) (cause : s.cause = .none) : s.BlockInv := by
  simp [State.BlockInv, fsm, cause]

/-! The encode's own registers. -/

theorem State.pixelTotal_lt (s : State) : s.pixelTotal < 2 ^ 64 :=
  calc s.width.toNat * s.height.toNat < 2 ^ 32 * 2 ^ 32 := Nat.mul_lt_mul'' s.width.isLt s.height.isLt
    _ = 2 ^ 64 := by norm_num

/-- Within the image, count does not wrap (R26). -/
theorem State.toNat_count_succ {s : State} (below : s.count.toNat < s.pixelTotal) :
    (s.count + 1).toNat = s.count.toNat + 1 := by
  have := s.pixelTotal_lt
  rw [BitVec.toNat_add_of_lt] <;> simp; omega

/-- Run rests below its cap, so its increment does not wrap (R24, R31). -/
theorem runAfter_le {s : State} (rests : s.run.toNat ≤ 61) (p : Pixel) :
    (runAfter s p).toNat ≤ 61 ∧ (runAfter s p).toNat ≤ s.run.toNat + 1 := by
  unfold runAfter
  split
  · split
    · simp
    · have : (s.run + 1).toNat = s.run.toNat + 1 := by rw [BitVec.toNat_add_of_lt] <;> simp; omega
      omega
  · simp

theorem State.cacheHit_iff (s : State) (p : Pixel) :
    s.cacheHit p = true ↔ s.readCache (pixelHash p) = p := decide_eq_true_iff

theorem State.readCache_congr {s t : State} (h : t.cache = s.cache) (j : Slot) :
    t.readCache j = s.readCache j := by
  simp only [State.readCache, h]

/-- Behind a PIXEL step the pixel's slot holds it, written or hit (R33, R115, R131). -/
theorem pixelResult_readCache_hash {s : State} (p : Pixel) :
    (pixelResult s p).readCache (pixelHash p) = p := by
  by_cases w : p = s.prev ∨ s.cacheHit p = false
  · calc (pixelResult s p).readCache (pixelHash p) = (s.writeCache (pixelHash p) p).readCache (pixelHash p) :=
          State.readCache_congr (if_pos w) _
      _ = p := s.readCache_writeCache_same _ _
  · have hit : s.cacheHit p = true := by simpa using (not_or.1 w).2
    have unchanged : (pixelResult s p).cache = s.cache := if_neg w
    exact (State.readCache_congr unchanged _).trans ((s.cacheHit_iff p).1 hit)

/-- Every other slot is as it was (R59). -/
theorem pixelResult_readCache_other {s : State} {p : Pixel} {j : Slot} (ne : pixelHash p ≠ j) :
    (pixelResult s p).readCache j = s.readCache j := by
  by_cases w : p = s.prev ∨ s.cacheHit p = false
  · have written : (pixelResult s p).cache = (s.writeCache (pixelHash p) p).cache := if_pos w
    calc (pixelResult s p).readCache j = (s.writeCache (pixelHash p) p).readCache j := by
          simp only [State.readCache, written]
      _ = s.readCache j := State.readCache_writeCache_other s p ne
  · have unchanged : (pixelResult s p).cache = s.cache := if_neg w
    simp only [State.readCache, unchanged]

/-- A PIXEL step keeps the slots pure (R32). -/
theorem pixelResult_slotsPure {s : State} (pure : s.SlotsPure) (p : Pixel) : (pixelResult s p).SlotsPure := by
  intro j
  by_cases eq : pixelHash p = j
  · subst eq; right; rw [pixelResult_readCache_hash]
  · rw [pixelResult_readCache_other eq]; exact pure j

theorem pixelResult_encodeInv {s : State} (inv : s.EncodeInv) (below : s.count.toNat < s.pixelTotal)
    (p : Pixel) : (pixelResult s p).EncodeInv := by
  obtain ⟨valid, rests, counted, pure, -, -⟩ := inv
  have count : (pixelResult s p).count.toNat = s.count.toNat + 1 := State.toNat_count_succ below
  have run : (pixelResult s p).run.toNat ≤ 61 ∧ (pixelResult s p).run.toNat ≤ s.run.toNat + 1 := by
    cases last : isLastPixel s
    · simpa [pixelResult, last] using runAfter_le rests p
    · simp [pixelResult, last]
  refine ⟨valid, run.1, by omega, pixelResult_slotsPure pure p, fun zero => by omega, fun _ => ?_⟩
  exact pixelResult_readCache_hash p

theorem isLastPixel_iff {s : State} (below : s.count.toNat < s.pixelTotal) :
    isLastPixel s = true ↔ s.count.toNat + 1 = s.pixelTotal := by
  simp only [isLastPixel, decide_eq_true_eq, State.toNat_count_succ below]

/-- A PIXEL step in ACTIVE keeps the block's invariant: below the last pixel the encode goes on, at the last one it
is complete and no run is open (R28, R118, R140). -/
theorem pixelResult_blockInv {s : State} (inv : s.BlockInv) (active : s.fsm = .active) (p : Pixel) :
    (pixelResult s p).BlockInv := by
  obtain ⟨causeIff, encode, -⟩ := inv
  obtain ⟨enc, below⟩ := encode active
  have enc' := pixelResult_encodeInv enc below p
  have count : (pixelResult s p).count.toNat = s.count.toNat + 1 := State.toNat_count_succ below
  have total : (pixelResult s p).pixelTotal = s.pixelTotal := rfl
  have cause : (pixelResult s p).cause = .none := causeIff.2 (by simp [active])
  have last := isLastPixel_iff below
  cases isLast : isLastPixel s
  · have fsm : (pixelResult s p).fsm = .active := by simp [pixelResult, isLast]
    have : s.count.toNat + 1 ≠ s.pixelTotal := fun eq => by simp [last.2 eq] at isLast
    refine ⟨by simp [cause, fsm], fun _ => ⟨enc', ?_⟩, fun done => by simp [fsm] at done⟩
    rw [count, total]
    omega
  · have fsm : (pixelResult s p).fsm = .done := by simp [pixelResult, isLast]
    have run : (pixelResult s p).run = 0 := by simp [pixelResult, isLast]
    refine ⟨by simp [cause, fsm], fun still => by simp [fsm] at still, fun _ => ⟨enc', ?_, run⟩⟩
    rw [count, total, last.1 isLast]

/-- The fresh encode of START (R36, R100). -/
theorem fresh_blockInv {w h : BitVec 32} (s : State) (valid : dimensionsValid w h = true) :
    State.BlockInv ((s.clearCause.initEncode w h).setFsm .active) := by
  have pure : State.SlotsPure ((s.clearCause.initEncode w h).setFsm .active) := fun j =>
    .inl (s.clearCause.readCache_initEncode w h j)
  have total : 0 < w.toNat * h.toNat := by
    simp only [dimensionsValid, decide_eq_true_eq] at valid
    exact Nat.mul_pos (by omega) (by omega)
  simp [State.BlockInv, State.EncodeInv, State.pixelTotal, valid, pure, total]

/-- Every command that raises no fault leaves a block that meets the invariant. -/
theorem resultOf_blockInv {i : Instr} {s : State} (inv : s.BlockInv) (command : isCommand i = true)
    (nf : s.faultOf i = none) : (s.resultOf i).BlockInv := by
  cases i with
  | start w h => exact fresh_blockInv s ((s.faultOf_start_eq_none_iff w h).1 nf).2
  | pixel r g b a =>
    by_cases active : s.fsm = .active
    · rw [State.resultOf_pixel active]; exact pixelResult_blockInv inv active _
    · rw [State.resultOf, if_neg active]; exact inv
  | reserved word => exact inv
  | _ => cases command

/-! A command that waits (R53). -/

theorem State.waitInv_of_none {s : State} (h : s.waiting = none) : s.WaitInv := fun w e => by
  rw [h] at e; cases e

theorem State.WaitInv.of_same {s t : State} (wait : s.WaitInv) (same : SameBlock s t)
    (waiting : t.waiting = s.waiting) (out : t.out = s.out) : t.WaitInv := fun w e => by
  rw [same.appendsOf_eq, out]; exact wait w (waiting ▸ e)

/-- OUT ends in the bytes of the appends accepted before, none for a new command. -/
theorem State.WaitInv.out_eq {s : State} {i : Instr} (wait : s.WaitInv)
    (own : ∀ w, s.waiting = some w → w.instr = i) :
    ∃ before, s.out = before ++ ((s.appendsOf i).take s.granted).flatten := by
  cases under : s.waiting with
  | none => exact ⟨s.out, by simp [State.granted_of_none under]⟩
  | some w =>
    obtain ⟨-, -, out⟩ := wait w under
    obtain rfl := own w under
    simpa [State.granted, under] using out

theorem SameBlock.suspend (s : State) (i : Instr) (u : State) : SameBlock s (s.suspend i u) := by
  simp [SameBlock]

/-- A command left waiting at its append `granted + m` (R53). -/
theorem suspend_waitInv {i : Instr} {s u : State} {m : Nat} (wait : s.WaitInv) (command : isCommand i = true)
    (own : ∀ w, s.waiting = some w → w.instr = i) (lt : m < (s.appendsOf i).length - s.granted)
    (ext : Extends (s.begun i) m (((s.appendsOf i).drop s.granted).take m).flatten u) :
    (s.suspend i u).WaitInv := by
  intro w e
  obtain ⟨out, -, turns, -⟩ := ext
  simp only [State.begun_out, State.begun_turns] at out turns
  obtain ⟨before, accepted⟩ := wait.out_eq own
  have here : w = { instr := i, accepted := s.granted + m } := by
    simpa [turns] using e.symm
  subst here
  rw [(SameBlock.suspend s i u).appendsOf_eq]
  refine ⟨command, by simp only; omega, before, ?_⟩
  rw [State.suspend_out, out, accepted, List.take_add, List.flatten_append, List.append_assoc]

theorem FaultInfo.code_ne_none (f : FaultInfo) : f.code ≠ .none := by cases f <;> simp [FaultInfo.code]

/-- A command of the host, new or resumed, keeps the invariant. -/
theorem exec_keeps_inv {i : Instr} {s t : State} (inv : s.Inv) (command : isCommand i = true)
    (own : ∀ w, s.waiting = some w → w.instr = i) (e : exec i s = .next t) : t.Inv := by
  obtain ⟨host, wait, block⟩ := inv
  cases exec_ends e with
  | faulted f fault =>
    exact ⟨host, State.waitInv_of_none rfl, State.blockInv_of_error rfl f.code_ne_none⟩
  | completed t nf accepts ext same =>
    obtain ⟨-, -, -, -, -, input, -⟩ := ext
    exact ⟨host.of_eq (by simpa using input), State.waitInv_of_none rfl,
      same.symm.blockInv (resultOf_blockInv block command nf)⟩
  | failed m k u nf lt accepts fails ext =>
    obtain ⟨-, -, -, -, -, input, -⟩ := ext
    exact ⟨host.of_eq (by simpa using input), State.waitInv_of_none rfl,
      State.blockInv_of_error rfl (FaultInfo.sinkFailure k).code_ne_none⟩
  | waits m u nf lt accepts silent ext =>
    exact ⟨host, suspend_waitInv wait command own lt ext, (SameBlock.suspend s i u).blockInv block⟩

theorem State.Inv.of_same {s t : State} (inv : s.Inv) (same : SameBlock s t) (host : t.HostOnly)
    (waiting : t.waiting = s.waiting) (out : t.out = s.out) : t.Inv := by
  obtain ⟨-, wait, block⟩ := inv
  exact ⟨host, wait.of_same same waiting out, same.blockInv block⟩

theorem hardwareReset_inv {s : State} (host : s.HostOnly) : s.hardwareReset.Inv :=
  ⟨host, State.waitInv_of_none rfl, State.blockInv_of_idle rfl rfl⟩

/-- Settles O55: a step is an interaction that leaves the block alone, a hardware reset, or a command, new or
resumed, and each keeps the invariant. -/
theorem invariantKept : Obligations.InvariantKept := by
  unfold Obligations.InvariantKept
  intro s t inv e
  have host := inv.1
  cases step_ends e with
  | idles => exact inv
  | runs c rest i t new next decodes e =>
    have inv' : s.takeInput.Inv := inv.of_same (by simp [SameBlock]) (host.of_tail rfl) rfl rfl
    exact exec_keeps_inv inv' (host.isCommand next decodes) (fun w under => by simp [new] at under) e
  | resumes w t under answered e =>
    obtain ⟨command, -, -⟩ := inv.2.1 w under
    exact exec_keeps_inv inv command (fun v under' => by rw [under] at under'; cases under'; rfl) e
  | reads v rest turn next =>
    obtain rfl | rfl := turn
    all_goals exact inv.of_same (by simp [SameBlock]) (host.of_tail rfl) rfl rfl
  | resets v rest turn next =>
    obtain rfl | rfl := turn
    all_goals exact hardwareReset_inv (host.of_tail rfl)
  | stalls w under silent => exact inv.of_same (by simp [SameBlock]) (host.of_eq rfl) rfl rfl

/-- Settles O54: in IDLE with cause NONE, and no interaction or command pending, nothing more is asked. -/
theorem invariantAtReset : Obligations.InvariantAtReset := by
  unfold Obligations.InvariantAtReset
  refine (State.inv_iff _).2 ⟨fun u mem => ?_, State.waitInv_of_none rfl, State.blockInv_of_idle rfl rfl⟩
  cases mem

end Sys2Proof.Machine
end

section
/-! The steps of one instruction (R27 to R29, R36, R100 to R119): its frame, its transitions of fsm and cause, and
the outcomes of START and PIXEL, each read off `ExecEnds`. -/

namespace Sys2Proof.Machine

/-! What a new instruction can do, without the part of a resumed one. -/

/-- A complete step whose appends start at the first: a fault before them, all of them, or SINK_FAILURE at one. -/
theorem exec_complete_cases {i : Instr} {s t : State} (first : s.granted = 0) (e : exec i s = .next t)
    (complete : t.waiting = none) :
    (∃ f, s.faultOf i = some f ∧ t.fsm = .error ∧ t.cause = f.code) ∨
    (s.faultOf i = none ∧ s.SinkAccepts (s.appendsOf i).length ∧ SameBlock t (s.resultOf i) ∧
      t.out = s.out ++ (s.appendsOf i).flatten) ∨
    (s.faultOf i = none ∧ ¬ s.SinkAccepts (s.appendsOf i).length ∧ t.fsm = .error ∧ t.cause = .sinkFailure) := by
  cases exec_ends e with
  | faulted f fault => exact .inl ⟨f, fault, rfl, rfl⟩
  | completed t nf accepts ext same =>
    obtain ⟨out, -⟩ := ext
    simp only [first, State.begun_out, Nat.sub_zero, List.drop_zero] at accepts out
    exact .inr (.inl ⟨nf, accepts, same, out⟩)
  | failed m k u nf lt accepts fails ext =>
    refine .inr (.inr ⟨nf, fun all => ?_, rfl, rfl⟩)
    rw [all m (by omega)] at fails
    cases fails
  | waits m u nf lt accepts silent ext => cases complete

/-- A complete step that raises no fault made all its appends and reached the block of `State.resultOf`. -/
theorem exec_completed {i : Instr} {s t : State} (first : s.granted = 0) (e : exec i s = .next t)
    (complete : t.waiting = none) (ok : t.fsm ≠ .error) :
    s.faultOf i = none ∧ s.SinkAccepts (s.appendsOf i).length ∧ SameBlock t (s.resultOf i) ∧
      t.out = s.out ++ (s.appendsOf i).flatten := by
  obtain ⟨f, -, error, -⟩ | done | ⟨-, -, error, -⟩ := exec_complete_cases first e complete
  · exact absurd error ok
  · exact done
  · exact absurd error ok

/-- A step that waits has changed nothing of the block (R53). -/
theorem exec_waiting_sameBlock {i : Instr} {s t : State} (e : exec i s = .next t) (waits : t.waiting ≠ none) :
    SameBlock s t := by
  cases exec_ends e with
  | faulted f fault => cases waits rfl
  | completed t nf accepts ext same => cases waits rfl
  | failed m k u nf lt accepts fails ext => cases waits rfl
  | waits m u nf lt accepts silent ext => exact .suspend s i u

/-! The frame of an instruction (R27, R29). -/

/-- Settles O49: however an instruction ends, its appends and its fault leave the host's side alone, and only START
writes the dimensions. -/
theorem instructionFrame : Obligations.InstructionFrame := by
  unfold Obligations.InstructionFrame
  intro i s t e
  have kept : ∀ {n : Nat} {bs : List Byte} {u : State}, Extends (s.begun i) n bs u →
      u.input = s.input ∧ u.statusReads = s.statusReads ∧
        (isStart i = false → u.width = s.width ∧ u.height = s.height) := by
    intro n bs u ext
    obtain ⟨-, -, -, width, height, input, statusReads, -⟩ := ext
    refine ⟨by simpa using input, by simpa using statusReads, fun other => ?_⟩
    rw [width, height, s.begun_of_not_start other]
    exact ⟨rfl, rfl⟩
  cases exec_ends e with
  | faulted f fault => exact ⟨rfl, rfl, fun _ => ⟨rfl, rfl⟩⟩
  | completed t nf accepts ext same => exact kept ext
  | failed m k u nf lt accepts fails ext => exact kept (u := u) ext
  | waits m u nf lt accepts silent ext => exact ⟨rfl, rfl, fun _ => ⟨rfl, rfl⟩⟩

/-! START (R100, R104). -/

/-- Settles O14: the one append is the header, and every field of the next state is fixed by the block reached or by
that append. -/
theorem startBeginsEncode : Obligations.StartBeginsEncode := by
  unfold Obligations.StartBeginsEncode
  intro w h s new inactive w1 wmax h1 hmax accepts
  have nf : s.faultOf (.start w h) = none :=
    (s.faultOf_start_eq_none_iff w h).2 ⟨inactive, decide_eq_true ⟨w1, wmax, h1, hmax⟩⟩
  have first := State.granted_of_none new
  obtain ⟨t, e, same, out, script, turns, -, -, input, statusReads, draws⟩ :=
    exec_of_accepts nf (by simpa [State.appendsOf_start nf, first] using accepts)
  rw [e]
  congr 1
  refine State.eq_of_same same ⟨?_, ?_, new.symm, ?_, ?_, ?_, ?_⟩
  all_goals simp [*, State.appendsOf_start nf]

/-- Settles O17: the only append of START is the one that fails. -/
theorem startSinkFailure : Obligations.StartSinkFailure := by
  unfold Obligations.StartSinkFailure
  intro w h s k new inactive w0 h0 _ fails
  have nf : s.faultOf (.start w h) = none :=
    (s.faultOf_start_eq_none_iff w h).2 ⟨inactive, (dimensionsValid_iff w h).2 ⟨w0, h0⟩⟩
  have appends := State.appendsOf_start nf
  have first := State.granted_of_none new
  obtain ⟨t, e, ends⟩ := exec_next (.start w h) s
  refine ⟨t, e, ?_⟩
  cases ends with
  | faulted f fault => rw [nf] at fault; cases fault
  | completed t nf accepts ext same =>
    rw [accepts 0 (by simp [appends, first])] at fails; cases fails
  | failed m j u nf lt accepts fails' ext =>
    obtain rfl : m = 0 := by simp [appends, first] at lt; exact lt
    obtain rfl : k = j := by rw [fails] at fails'; cases fails'; rfl
    obtain ⟨out, -, -, width, height, input, statusReads, -⟩ := ext
    exact ⟨rfl, rfl, by simpa [appends, first] using out, width, height, input, statusReads, rfl⟩
  | waits m u nf lt accepts silent ext =>
    obtain rfl : m = 0 := by simp [appends, first] at lt; exact lt
    rw [silent] at fails; cases fails

/-- A START that enters ACTIVE has made the fresh block and appended the header (R36, R100, R101). -/
theorem start_enters_active {w h : BitVec 32} {s t : State} (new : s.waiting = none) (inactive : s.fsm ≠ .active)
    (e : exec (.start w h) s = .next t) (active : t.fsm = .active) :
    SameBlock t (s.resultOf (.start w h)) ∧ t.out = s.out ++ headerBytes w h := by
  have complete : t.waiting = none := by
    by_contra waits
    obtain ⟨-, -, -, -, -, -, fsm, -⟩ := exec_waiting_sameBlock e waits
    exact inactive (fsm.trans active)
  obtain ⟨nf, -, same, out⟩ :=
    exec_completed (State.granted_of_none new) e complete (by simp [active])
  exact ⟨same, by simpa [State.appendsOf_start nf] using out⟩

/-- Settles O18: the block that START reaches does not mention the state before it. -/
theorem encodesAreIndependent : Obligations.EncodesAreIndependent := by
  unfold Obligations.EncodesAreIndependent
  intro w h s₁ s₂ t₁ t₂ new₁ new₂ inactive₁ inactive₂ e₁ e₂ active₁ active₂
  obtain ⟨same₁, out₁⟩ := start_enters_active new₁ inactive₁ e₁ active₁
  obtain ⟨same₂, out₂⟩ := start_enters_active new₂ inactive₂ e₂ active₂
  have fresh : SameBlock (s₁.resultOf (.start w h)) (s₂.resultOf (.start w h)) := by
    simp [SameBlock, State.resultOf]
  exact ⟨(same₁.trans fresh).trans same₂.symm, headerBytes w h, out₁, out₂⟩

/-! PIXEL in ACTIVE (R113 to R119). -/

theorem State.faultOf_pixel {s : State} (active : s.fsm = .active) (r g b a : Byte) :
    s.faultOf (.pixel r g b a) = none := by
  simp [State.faultOf, active]

/-- A PIXEL step that completes and raises no fault. -/
theorem pixel_completed {p : Pixel} {s t : State} (new : s.waiting = none) (active : s.fsm = .active)
    (e : exec (.pixel p.r p.g p.b p.a) s = .next t) (complete : t.waiting = none) (ok : t.fsm ≠ .error) :
    SameBlock t (pixelResult s p) ∧
      t.out = s.out ++ (ownAppends s p).flatten ++ (lastAppends s p).flatten := by
  obtain ⟨-, -, same, out⟩ := exec_completed (State.granted_of_none new) e complete ok
  rw [State.resultOf_pixel active] at same
  rw [State.appendsOf_pixel active, pixelAppends, List.flatten_append, ← List.append_assoc] at out
  exact ⟨same, out⟩

/-- Settles O24: the block reached is that of `pixelResult`, and on the last pixel the finalizer's appends end in the
marker. -/
theorem pixelCountsAndFinishes : Obligations.PixelCountsAndFinishes := by
  unfold Obligations.PixelCountsAndFinishes
  intro p s t new active e complete ok
  obtain ⟨⟨-, -, run, count, width, height, fsm, -⟩, out⟩ := pixel_completed new active e complete ok
  refine ⟨count, width, height, ?_⟩
  split
  · rename_i total
    have last : isLastPixel s = true := decide_eq_true total
    refine ⟨by simpa [pixelResult, last] using fsm, by simpa [pixelResult, last] using run,
      (ownAppends s p).flatten ++ (flushAppends (runAfter s p)).flatten, ?_⟩
    simpa [lastAppends, last, finalizerAppends] using out
  · rename_i below
    have last : isLastPixel s = false := decide_eq_false below
    simpa [pixelResult, last] using fsm

/-- The flush of a run of at most 62 pixels is nothing or one RUN chunk (R81, R116). -/
theorem flushAppends_cases {n : BitVec 6} (le : n.toNat ≤ 62) :
    flushAppends n = [] ∨ ∃ m, WellFormed (.run m) ∧ flushAppends n = [recordBytes (.run m)] := by
  by_cases closed : n = 0
  · exact .inl (closed ▸ flushAppends_closed)
  · refine .inr ⟨n - 1, ?_, flushAppends_open n closed⟩
    have below : (n - 1).toNat < 62 := by bv_omega
    exact decide_eq_true below

/-- The chunk of a pixel is one chunk that has an encoding, and no RUN (R114). -/
theorem chunkFor_nonRun (p q : Pixel) (hit : Bool) :
    isChunk (chunkFor p q hit) = true ∧ WellFormed (chunkFor p q hit) ∧ ∀ n, chunkFor p q hit ≠ .run n := by
  unfold chunkFor
  split
  · simp [isChunk, WellFormed, Instr.wellFormed]
  split
  · simp [isChunk, WellFormed, Instr.wellFormed]
  split
  · simp [isChunk, WellFormed, Instr.wellFormed]
  split
  · simp [isChunk, WellFormed, Instr.wellFormed]
  · simp [isChunk, WellFormed, Instr.wellFormed]

/-- Settles O25: the pixel's own appends by their definition, and the finalizer's, each flush by its length. -/
theorem pixelEmitsOneOfFour : Obligations.PixelEmitsOneOfFour := by
  unfold Obligations.PixelEmitsOneOfFour
  intro p s t new active rests e complete ok
  obtain ⟨-, out⟩ := pixel_completed new active e complete ok
  refine ⟨_, _, out, ?_, ?_⟩
  · by_cases same : p = s.prev
    · by_cases cap : s.run.toNat = 61
      · right; left; simp [ownAppends, same, cap]
      · left; simp [ownAppends, same, cap]
    · obtain ⟨chunk, wf, nonRun⟩ := chunkFor_nonRun p s.prev (s.cacheHit p)
      refine .inr (.inr ⟨chunkFor p s.prev (s.cacheHit p), chunk, wf, nonRun, ?_⟩)
      obtain closed | ⟨n, wf', flush⟩ := flushAppends_cases (n := s.run) (by omega)
      · left; simp [ownAppends, same, closed]
      · right; exact ⟨n, wf', by simp [ownAppends, same, flush]⟩
  · cases last : isLastPixel s
    · left; simp [lastAppends, last]
    · obtain ⟨le, -⟩ := runAfter_le rests p
      obtain closed | ⟨n, wf, flush⟩ := flushAppends_cases (n := runAfter s p) (by omega)
      · right; left; simp [lastAppends, last, finalizerAppends, closed]
      · right; right; exact ⟨n, wf, by simp [lastAppends, last, finalizerAppends, flush]⟩

/-- Settles O20: a run continuation below the last pixel makes no append, or RUN 62 at the cap. -/
theorem runContinuation : Obligations.RunContinuation := by
  unfold Obligations.RunContinuation
  intro p s new active eq rests below accepts
  have first := State.granted_of_none new
  have notLast : isLastPixel s = false := by
    have within : s.count.toNat < s.pixelTotal := by unfold State.pixelTotal; omega
    refine decide_eq_false fun total => ?_
    rw [State.toNat_count_succ within] at total
    exact absurd total (by unfold State.pixelTotal; omega)
  have appends : s.appendsOf (.pixel p.r p.g p.b p.a) = if s.run.toNat = 61 then [[0xFD]] else [] := by
    rw [State.appendsOf_pixel active]
    simp [pixelAppends, ownAppends, lastAppends, eq, notLast]
  have atMostOne : (s.appendsOf (.pixel p.r p.g p.b p.a)).length ≤ 1 := by
    rw [appends]; split <;> simp
  obtain ⟨t, e, same, ext⟩ := exec_of_accepts (State.faultOf_pixel active p.r p.g p.b p.a)
    (accepts.mono (by omega))
  rw [State.resultOf_pixel active] at same
  obtain ⟨cache, prev, run, -, -, -, fsm, -⟩ := same
  obtain ⟨out, -, turns, -⟩ := ext
  rw [appends, first] at out turns
  replace run : t.run = runAfter s p := by simpa [pixelResult, notLast] using run
  refine ⟨t.settle, e, by simpa [pixelResult, notLast] using fsm, ?_, prev, ?_, fun low => ?_, fun cap => ?_⟩
  · exact (State.readCache_congr cache _).trans (pixelResult_readCache_hash p)
  · obtain ⟨le, -⟩ := runAfter_le rests p
    exact run ▸ le
  · have low' : s.run.toNat ≠ 61 := by omega
    have next : (s.run + 1).toNat = s.run.toNat + 1 := by bv_omega
    have counted : t.run = s.run + 1 := by simp [run, runAfter, eq, low']
    exact ⟨by simpa [low'] using out, by rw [State.settle_run, counted, next], by simpa [low'] using turns⟩
  · have cap' : s.run.toNat = 61 := by omega
    exact ⟨by simpa [cap'] using out, by simp [run, runAfter, eq, cap'], by simpa [cap'] using turns⟩

end Sys2Proof.Machine
end

section
/-! The transitions of fsm and cause (R28, R29, R150 to R159, R170), at a command and at a step of the machine. -/

namespace Sys2Proof.Machine

/-! The transitions at a command (R28). -/

theorem fault_transition {i : Instr} {s t : State} {f : FaultInfo} (fault : s.faultOf i = some f)
    (e : exec i s = .next t) : t.fsm = .error ∧ t.cause = f.code := by
  obtain rfl := Host.Outcome.next.inj ((exec_of_fault fault).symm.trans e)
  exact ⟨rfl, rfl⟩

/-- START: PROTOCOL in ACTIVE, INVALID_INPUT on a zero dimension, otherwise by the sink's answer to the header. -/
theorem start_transition {w h : BitVec 32} {s t : State} (new : s.waiting = none)
    (e : exec (.start w h) s = .next t) (complete : t.waiting = none) :
    if s.fsm = .active then t.fsm = .error ∧ t.cause = .protocol
    else if w = 0 ∨ h = 0 then t.fsm = .error ∧ t.cause = .invalidInput
    else (s.SinkAccepts 1 ∧ t.fsm = .active ∧ t.cause = .none) ∨
      (¬ s.SinkAccepts 1 ∧ t.fsm = .error ∧ t.cause = .sinkFailure) := by
  split
  · rename_i active
    exact fault_transition (f := .protocolError .startWhileActive) (by simp [State.faultOf, active]) e
  · rename_i inactive
    split
    · rename_i zero
      have bad := (dimensionsValid_eq_false_iff w h).2 zero
      exact fault_transition (f := .invalidInput w h) (by simp [State.faultOf, inactive, bad]) e
    · rename_i nonzero
      have nf : s.faultOf (.start w h) = none :=
        (s.faultOf_start_eq_none_iff w h).2 ⟨inactive, (dimensionsValid_iff w h).2 (not_or.1 nonzero)⟩
      obtain ⟨f, fault, -⟩ | ⟨-, accepts, ⟨-, -, -, -, -, -, fsm, cause⟩, -⟩ | ⟨-, refuses, fault⟩ :=
        exec_complete_cases (State.granted_of_none new) e complete
      · rw [nf] at fault; cases fault
      · left; exact ⟨by simpa [State.appendsOf_start nf] using accepts, fsm, cause⟩
      · right; exact ⟨by simpa [State.appendsOf_start nf] using refuses, fault⟩

/-- PIXEL in ACTIVE: to DONE on the last pixel, unless the sink fails an append. -/
theorem pixel_transition {p : Pixel} {s t : State} (new : s.waiting = none) (active : s.fsm = .active)
    (e : exec (.pixel p.r p.g p.b p.a) s = .next t) (complete : t.waiting = none) :
    (s.SinkAccepts (pixelAppends s p).length ∧ t.cause = s.cause ∧
      t.fsm = if (s.count + 1).toNat = s.width.toNat * s.height.toNat then .done else .active) ∨
    (¬ s.SinkAccepts (pixelAppends s p).length ∧ t.fsm = .error ∧ t.cause = .sinkFailure) := by
  have ways := exec_complete_cases (State.granted_of_none new) e complete
  rw [State.faultOf_pixel active, State.appendsOf_pixel active, State.resultOf_pixel active] at ways
  obtain ⟨f, fault, -⟩ | ⟨-, accepts, ⟨-, -, -, -, -, -, fsm, cause⟩, -⟩ | ⟨-, refuses, fault⟩ := ways
  · cases fault
  · left; exact ⟨accepts, cause, by simpa [pixelResult, isLastPixel, State.pixelTotal] using fsm⟩
  · right; exact ⟨refuses, fault⟩

/-- PIXEL and a reserved word are absorbed in ERROR (R158). -/
theorem exec_absorbed {i : Instr} {s t : State} (error : s.fsm = .error) (command : isCommand i = true)
    (other : isStart i = false) (e : exec i s = .next t) : t = s.settle := by
  cases i with
  | pixel r g b a => exact (Host.Outcome.next.inj ((exec_pixel_of_error error).symm.trans e)).symm
  | reserved word =>
    simp only [exec, execReserved, error, if_true, Progress.finish_goOn] at e
    exact (Host.Outcome.next.inj e).symm
  | start w h => cases other
  | _ => cases command

/-- Settles O41: command by command and state by state, the fault, the absorption or the block reached. -/
theorem fsmTransitions : Obligations.FsmTransitions := by
  unfold Obligations.FsmTransitions
  intro i s t new command e
  split
  · rename_i waits
    obtain ⟨-, -, -, -, -, -, fsm, cause⟩ := exec_waiting_sameBlock e waits
    exact ⟨fsm.symm, cause.symm⟩
  rename_i complete
  rw [not_not] at complete
  cases i with
  | start w h => exact start_transition new e complete
  | pixel r g b a =>
    cases fsm : s.fsm with
    | active => exact pixel_transition (p := { r := r, g := g, b := b, a := a }) new fsm e complete
    | error => obtain rfl := exec_absorbed fsm rfl rfl e; exact ⟨fsm, rfl⟩
    | idle => exact fault_transition (f := .protocolError .pixelNotActive) (by simp [State.faultOf, fsm]) e
    | done => exact fault_transition (f := .protocolError .pixelNotActive) (by simp [State.faultOf, fsm]) e
  | reserved word =>
    by_cases error : s.fsm = .error
    · obtain rfl := exec_absorbed error rfl rfl e
      exact ⟨error, (if_pos error).symm⟩
    · simpa [error, FaultInfo.code] using
        fault_transition (f := .protocolError .reserved) (by simp [State.faultOf, error]) e
  | _ => cases command

/-! The ways out of ERROR (R28, R159). -/

/-- A command makes at most one append in ERROR: START's header. -/
theorem appendsOf_length_of_error {i : Instr} {s : State} (error : s.fsm = .error) (command : isCommand i = true) :
    (s.appendsOf i).length ≤ 1 := by
  cases i with
  | start w h => simp only [State.appendsOf]; split <;> simp
  | pixel r g b a => simp [State.appendsOf, error]
  | reserved word => simp [State.appendsOf]
  | _ => cases command

/-- A command performed in ERROR that leaves it is a START with accepted dimensions whose header is accepted. -/
theorem exec_leaves_error {i : Instr} {s t : State} (error : s.fsm = .error) (command : isCommand i = true)
    (first : s.granted = 0) (e : exec i s = .next t) (leaves : t.fsm ≠ .error) :
    ∃ w h, i = .start w h ∧ w ≠ 0 ∧ h ≠ 0 ∧ t.fsm = .active ∧ t.cause = .none ∧ t.waiting = none ∧
      s.answerAt 0 = some .accept := by
  have complete : t.waiting = none := by
    by_contra waits
    obtain ⟨-, -, -, -, -, -, fsm, -⟩ := exec_waiting_sameBlock e waits
    exact leaves (fsm.symm.trans error)
  cases start : isStart i with
  | false =>
    obtain rfl := exec_absorbed error command start e
    exact absurd error leaves
  | true =>
    cases i with
    | start w h =>
      obtain ⟨nf, accepts, ⟨-, -, -, -, -, -, fsm, cause⟩, -⟩ := exec_completed first e complete leaves
      obtain ⟨-, valid⟩ := (s.faultOf_start_eq_none_iff w h).1 nf
      obtain ⟨w0, h0⟩ := (dimensionsValid_iff w h).1 valid
      exact ⟨w, h, rfl, w0, h0, fsm, cause, complete, accepts 0 (by simp [State.appendsOf_start nf])⟩
    | _ => cases start

/-- Settles O42: of the interactions only reset and a command change fsm, and of the commands only START. -/
theorem onlyStartOrResetLeavesError : Obligations.OnlyStartOrResetLeavesError := by
  unfold Obligations.OnlyStartOrResetLeavesError
  intro s t host wait error e leaves
  cases step_ends e with
  | idles => exact absurd error leaves
  | runs c rest i t new next decodes e =>
    obtain ⟨w, h, rfl, w0, h0, fsm, cause, complete, accepts⟩ :=
      exec_leaves_error (s := s.takeInput) error (host.isCommand next decodes)
        (State.granted_of_none new) e leaves
    exact .inr ⟨fsm, cause, complete, accepts, w, h, w0, h0, .inl ⟨new, c, rest, next, decodes⟩⟩
  | resumes v t under answered e =>
    obtain ⟨command, pending, -⟩ := wait v under
    have accepted : v.accepted = 0 := by
      have := appendsOf_length_of_error error command
      omega
    obtain ⟨w, h, start, w0, h0, fsm, cause, complete, accepts⟩ :=
      exec_leaves_error error command (by simpa [State.granted, under] using accepted) e leaves
    refine .inr ⟨fsm, cause, complete, accepts, w, h, w0, h0, .inr ?_⟩
    rw [under, ← start, ← accepted]
  | reads v rest turn next => obtain rfl | rfl := turn <;> exact absurd error leaves
  | resets v rest turn next => exact .inl ⟨rest, next, rfl⟩
  | stalls => exact absurd error leaves

/-! STATUS and hardware reset (R29, R170). -/

/-- STATUS as a number: FSM below CAUSE (R29). -/
theorem State.status_toNat (s : State) :
    s.status.toNat = s.fsm.statusBits.toNat + 4 * s.cause.statusBits.toNat := by
  simp only [State.status, toNat_concat, BitVec.toNat_ofNat]
  omega

theorem State.status_of_idle {s : State} (fsm : s.fsm = .idle) (cause : s.cause = .none) : s.status = 0x00 := by
  simp [State.status, fsm, cause, Fsm.statusBits, Cause.statusBits]

/-- A new interaction is taken and performed (R178). -/
theorem step_of_new {s : State} {u : Input} {rest : List Input} (new : s.waiting = none)
    (next : s.input = u :: rest) : step s = perform u s.takeInput := by
  simp only [step, performStep, performNext, new, next]

/-- Settles O50: STATUS is the sum of its two fields, each by its table; a read adds to the host's log only. -/
theorem statusRegister : Obligations.StatusRegister := by
  unfold Obligations.StatusRegister
  intro s
  refine ⟨?_, ?_, fun rest new next => ?_⟩
  · rw [s.status_toNat]
    exact congrArg₂ (· + 4 * ·) (by cases s.fsm <;> rfl) (by cases s.cause <;> rfl)
  · have fsm := s.fsm.statusBits.isLt
    have cause := s.cause.statusBits.isLt
    rw [s.status_toNat]
    omega
  · have taken : s.takeInput = { s with input := rest } := by rw [State.takeInput, next]; rfl
    rw [step_of_new new next, taken]
    rfl

/-- The reset signal takes effect at its turn, with a command under way behind a silent sink or with none (R28). -/
theorem step_of_reset {s : State} {rest : List Input} (next : s.input = .hardwareReset :: rest)
    (turn : s.waiting = none ∨ s.answerAt 0 = none) :
    ∃ v, (v = s ∨ v = s.takeAnswer) ∧ step s = .next v.takeInput.hardwareReset := by
  cases under : s.waiting with
  | none => exact ⟨s, .inl rfl, step_of_new under next⟩
  | some w =>
    have silent : s.answerAt 0 = none := by simpa [under] using turn
    exact ⟨s.takeAnswer, .inr rfl, by
      simp only [step, performStep, continueWaiting, performWaiting, under, silent, State.takeAnswer_input,
        next, perform]⟩

/-- Settles O51: reset sets fsm and cause and keeps what is not the block's. -/
theorem hardwareResetLeaves : Obligations.HardwareResetLeaves := by
  unfold Obligations.HardwareResetLeaves
  refine ⟨rfl, rfl, rfl, fun s rest next turn => ?_⟩
  obtain ⟨v, v_eq, e⟩ := step_of_reset next turn
  refine ⟨_, e, ?_⟩
  obtain rfl | rfl := v_eq
  all_goals exact ⟨rfl, rfl, State.status_of_idle rfl rfl, rfl, by simp [next], rfl, rfl⟩

end Sys2Proof.Machine
end

section
/-! The sink (spec/20_memory.md R51 to R53, R152): what a step has appended when it ends, at whichever append the sink
fails it or leaves it waiting. -/

namespace Sys2Proof.Machine

/-! How many appends a step makes (R52, R141). -/

theorem flushAppends_length_le (n : BitVec 6) : (flushAppends n).length ≤ 1 := by
  unfold flushAppends; split <;> simp

/-- A PIXEL step makes at most three appends: only a pixel that differs from prev makes two of its own, and then it
leaves no run for the finalizer to flush. -/
theorem pixelAppends_length_le (s : State) (p : Pixel) : (pixelAppends s p).length ≤ 3 := by
  have flush := flushAppends_length_le s.run
  have own_last : (pixelAppends s p).length ≤ (ownAppends s p).length + (finalizerAppends (runAfter s p)).length := by
    simp only [pixelAppends, lastAppends, List.length_append]
    split <;> simp
  by_cases same : p = s.prev
  · have own : (ownAppends s p).length ≤ 1 := by
      simp only [ownAppends, same, if_true]; split <;> simp
    have final : (finalizerAppends (runAfter s p)).length ≤ 2 := by
      simpa [finalizerAppends] using flushAppends_length_le (runAfter s p)
    omega
  · have own : (ownAppends s p).length ≤ 2 := by simpa [ownAppends, same] using flush
    have final : (finalizerAppends (runAfter s p)).length = 1 := by
      simp [runAfter, same, finalizerAppends, flushAppends]
    omega

/-- No step asks the sink more than three times. -/
theorem State.appendsOf_length_le (s : State) (i : Instr) : (s.appendsOf i).length ≤ 3 := by
  cases i with
  | start w h => simp only [State.appendsOf]; split <;> simp
  | pixel r g b a =>
    simp only [State.appendsOf]
    split
    · exact pixelAppends_length_le _ _
    · simp
  | endMarker =>
    have := flushAppends_length_le s.run
    simp only [State.appendsOf, finalizerAppends, List.length_append, List.length_singleton]; omega
  | _ => simp [State.appendsOf]

/-- An instruction that faults before its first append makes none. -/
theorem State.appendsOf_of_fault {i : Instr} {s : State} {f : FaultInfo} (fault : s.faultOf i = some f) :
    s.appendsOf i = [] := by
  cases i with
  | start w h =>
    refine if_neg fun ok => ?_
    rw [(s.faultOf_start_eq_none_iff w h).2 ok] at fault
    cases fault
  | pixel r g b a =>
    refine if_neg fun active => ?_
    rw [State.faultOf_pixel active] at fault
    cases fault
  | reserved word => rfl
  | _ => cases fault

theorem State.faultOf_of_appends {i : Instr} {s : State} {m : Nat} (lt : m < (s.appendsOf i).length) :
    s.faultOf i = none := by
  cases fault : s.faultOf i with
  | none => rfl
  | some f => simp [State.appendsOf_of_fault fault] at lt

/-! The first append that is not accepted (R52, R53). -/

/-- Accepting turns come before one that does not accept. -/
theorem State.SinkAccepts.le_of_not_accept {s : State} {m n : Nat} (accepts : s.SinkAccepts m)
    (not : s.answerAt n ≠ some .accept) : m ≤ n := by
  by_contra before
  exact not (accepts n (by omega))

/-- Two turns that each come right behind accepting ones, and do not accept, are the same turn. -/
theorem State.SinkAccepts.first_unique {s : State} {m n : Nat} (hm : s.SinkAccepts m) (hn : s.SinkAccepts n)
    (rm : s.answerAt m ≠ some .accept) (rn : s.answerAt n ≠ some .accept) : m = n :=
  le_antisymm (hm.le_of_not_accept rn) (hn.le_of_not_accept rm)

/-- A step whose append at place `granted + m` fails ends in SINK_FAILURE there (R52, R152). -/
theorem exec_of_fails {i : Instr} {s : State} {m k : Nat} (lt : m < (s.appendsOf i).length - s.granted)
    (accepts : s.SinkAccepts m) (fails : s.answerAt m = some (.fail k)) :
    ∃ u, exec i s = .next (u.raise (.sinkFailure k)).settle ∧
      Extends (s.begun i) (m + 1) ((((s.appendsOf i).drop s.granted).take m).flatten ++
        ((s.appendsOf i).getD (s.granted + m) []).take k) u := by
  obtain ⟨t, e, ends⟩ := exec_next i s
  cases ends with
  | faulted f fault => simp [State.appendsOf_of_fault fault] at lt
  | completed t nf all => rw [all m lt] at fails; cases fails
  | failed n j u nf lt' accepts' fails' ext =>
    obtain rfl := accepts.first_unique accepts' (by simp [fails]) (by simp [fails'])
    obtain rfl : k = j := by rw [fails] at fails'; cases fails'; rfl
    exact ⟨u, e, ext⟩
  | waits n u nf lt' accepts' silent =>
    obtain rfl := accepts.first_unique accepts' (by simp [fails]) (by simp [silent])
    rw [fails] at silent; cases silent

/-- A step whose append at place `granted + m` has no answer waits there, the block as before (R53). -/
theorem exec_of_silent {i : Instr} {s : State} {m : Nat} (lt : m < (s.appendsOf i).length - s.granted)
    (accepts : s.SinkAccepts m) (silent : s.answerAt m = none) :
    exec i s = .next
      { s with
        out := s.out ++ (((s.appendsOf i).drop s.granted).take m).flatten
        script := s.script.drop (m + 1)
        turns := s.turns + m + 1
        waiting := some { instr := i, accepted := s.granted + m } } := by
  obtain ⟨t, e, ends⟩ := exec_next i s
  cases ends with
  | faulted f fault => simp [State.appendsOf_of_fault fault] at lt
  | completed t nf all => rw [all m lt] at silent; cases silent
  | failed n k u nf lt' accepts' fails =>
    obtain rfl := accepts.first_unique accepts' (by simp [silent]) (by simp [fails])
    rw [silent] at fails; cases fails
  | waits n u nf lt' accepts' silent' ext =>
    obtain rfl := accepts.first_unique accepts' (by simp [silent]) (by simp [silent'])
    obtain ⟨out, script, turns, -⟩ := ext
    rw [e]
    simp at out script turns
    simp [State.suspend, out, script, turns]

/-! A failing append (R52, R152, R156). -/

/-- The SINK_FAILURE of a new instruction other than START, which alone writes the dimensions. -/
theorem exec_sinkFailure {i : Instr} {s : State} {m k : Nat} (other : isStart i = false) (new : s.waiting = none)
    (lt : m < (s.appendsOf i).length) (accepts : s.SinkAccepts m) (fails : s.answerAt m = some (.fail k)) :
    ∃ t, exec i s = .next t ∧ FaultEntered s t .sinkFailure ∧
      t.out = s.out ++ ((s.appendsOf i).take m).flatten ++ ((s.appendsOf i).getD m []).take k ∧
      t.turns = s.turns + m + 1 := by
  have first := State.granted_of_none new
  obtain ⟨u, e, ext⟩ := exec_of_fails (i := i) (by omega) accepts fails
  rw [s.begun_of_not_start other, first] at ext
  obtain ⟨out, -, turns, width, height, input, statusReads, -⟩ := ext
  exact ⟨_, e, ⟨rfl, rfl, width, height, input, statusReads, rfl⟩, by simpa using out, turns⟩

/-- Settles O37: every row but the commands starts its appends in the state it is performed in. -/
theorem recordSinkFailure : Obligations.RecordSinkFailure := by
  unfold Obligations.RecordSinkFailure
  intro i s m k record new lt accepts fails
  have other : isStart i = false := by
    cases i with
    | start w h => cases record
    | _ => rfl
  exact exec_sinkFailure other new lt accepts fails

/-- Settles O57: in ACTIVE the appends of PIXEL are `pixelAppends`. -/
theorem pixelSinkFailure : Obligations.PixelSinkFailure := by
  unfold Obligations.PixelSinkFailure
  intro p s m k new active
  have appends : s.appendsOf (pixelCommand p) = pixelAppends s p := State.appendsOf_pixel active _ _ _ _
  rw [← appends]
  exact exec_sinkFailure rfl new

/-! A silent sink (R53). -/

/-- Settles O48: a new instruction has no append accepted before. -/
theorem silentSinkIsStuck : Obligations.SilentSinkIsStuck := by
  unfold Obligations.SilentSinkIsStuck
  intro i s m new lt accepts silent
  have first := State.granted_of_none new
  simpa [first] using exec_of_silent (i := i) (by omega) accepts silent

/-! What a step has appended (R51). -/

/-- The bytes accepted up to a cut in append `m` are the first of them all. -/
theorem take_flatten_append_take_prefix (ps : List (List Byte)) (m k : Nat) :
    (ps.take m).flatten ++ (ps.getD m []).take k <+: ps.flatten := by
  by_cases lt : m < ps.length
  · calc (ps.take m).flatten ++ (ps.getD m []).take k <+: (ps.take m).flatten ++ (ps.drop m).flatten := by
          rw [List.drop_eq_getElem_cons lt, List.getD_eq_getElem _ _ lt, List.flatten_cons]
          exact (List.prefix_append_right_inj _).2 ((List.take_prefix _ _).trans (List.prefix_append _ _))
      _ = ps.flatten := by rw [← List.flatten_append, List.take_append_drop]
  · simp [List.take_of_length_le (Nat.le_of_not_lt lt), List.getElem?_eq_none (Nat.le_of_not_lt lt)]

/-- However a step ends, it has appended the first bytes of its appends to come (R51, R52). -/
theorem exec_out {i : Instr} {s t : State} (e : exec i s = .next t) :
    ∃ bs, bs <+: ((s.appendsOf i).drop s.granted).flatten ∧ t.out = s.out ++ bs := by
  cases exec_ends e with
  | faulted f fault => exact ⟨[], List.nil_prefix, by simp⟩
  | completed t nf accepts ext => exact ⟨_, List.prefix_rfl, by simpa using ext.1⟩
  | failed m k u nf lt accepts fails ext =>
    have cut := take_flatten_append_take_prefix ((s.appendsOf i).drop s.granted) m k
    exact ⟨_, cut, by simpa using ext.1⟩
  | waits m u nf lt accepts silent ext =>
    exact ⟨_, by simpa using take_flatten_append_take_prefix ((s.appendsOf i).drop s.granted) m 0,
      by simpa using ext.1⟩

/-- A new instruction has appended all of them when the sink accepts. -/
theorem exec_out_of_accepts {i : Instr} {s t : State} (first : s.granted = 0) (accepts : s.SinkAccepts 3)
    (e : exec i s = .next t) : t.out = s.out ++ (s.appendsOf i).flatten := by
  have atMost := s.appendsOf_length_le i
  cases exec_ends e with
  | faulted f fault => simp [State.appendsOf_of_fault fault]
  | completed t nf accepts ext => simpa [first] using ext.1
  | failed m k u nf lt _ fails => rw [accepts m (by omega)] at fails; cases fails
  | waits m u nf lt _ silent => rw [accepts m (by omega)] at silent; cases silent

/-! A script of answers (log 3). -/

theorem State.answerAt_of_script {s : State} {k : Nat} {a : Option SinkAnswer} (h : s.script[k]? = some a) :
    s.answerAt k = a := by
  simp [State.answerAt, h]

theorem State.sinkAccepts_of_script {s : State} {m : Nat} {rest : List (Option SinkAnswer)}
    (h : s.script = List.replicate m (some .accept) ++ rest) : s.SinkAccepts m := fun k lt =>
  State.answerAt_of_script (by simp [h, List.getElem?_append_left, lt])

/-- Settles O43: both steps have the same appends; the one has the first of their bytes, the other all of them. -/
theorem failedStepLeavesPrefix : Obligations.FailedStepLeavesPrefix := by
  unfold Obligations.FailedStepLeavesPrefix
  intro i s t u new e e'
  have first := State.granted_of_none new
  have all : u.out = s.out ++ (s.appendsOf i).flatten :=
    exec_out_of_accepts (s := { s with script := [some .accept, some .accept, some .accept] }) first
      (State.sinkAccepts_of_script (m := 3) (rest := []) rfl) e'
  constructor
  · obtain ⟨bs, ⟨rest, split⟩, out⟩ := exec_out e
    rw [first, List.drop_zero] at split
    exact ⟨rest, by rw [all, out, ← split, List.append_assoc]⟩
  · intro complete ok
    obtain ⟨-, -, -, out⟩ := exec_completed first e complete ok
    rw [out, all]

/-- Settles O44: of what a step can do only an instruction appends to OUT, and nothing else touches it. -/
theorem outputOnlyGrows : Obligations.OutputOnlyGrows := by
  unfold Obligations.OutputOnlyGrows
  intro s t e
  have grows : ∃ bs, t.out = s.out ++ bs := by
    cases step_ends e with
    | runs c rest i t new next decodes e =>
      obtain ⟨bs, -, out⟩ := exec_out e
      exact ⟨bs, out⟩
    | resumes w t under answered e =>
      obtain ⟨bs, -, out⟩ := exec_out e
      exact ⟨bs, out⟩
    | reads v rest turn next => obtain rfl | rfl := turn <;> exact ⟨[], by simp⟩
    | resets v rest turn next => obtain rfl | rfl := turn <;> exact ⟨[], by simp⟩
    | idles => exact ⟨[], by simp⟩
    | stalls => exact ⟨[], by simp⟩
  obtain ⟨bs, out⟩ := grows
  refine ⟨⟨bs, out⟩, fun a lt => ?_⟩
  simp [State.outByte, out, List.getElem?_append_left lt]

end Sys2Proof.Machine
end

section
/-! The steps of the machine (R53, R59, R61, R166, R177): what each runs, and how one that waited goes on. -/

namespace Sys2Proof.Machine

/-! What a step runs. -/

theorem step_of_code {s : State} {c : Code} {rest : List Input} (new : s.waiting = none)
    (next : s.input = .code c :: rest) : step s = performCode c { s with input := rest } := by
  have taken : s.takeInput = { s with input := rest } := by rw [State.takeInput, next]; rfl
  rw [step_of_new new next, taken]
  rfl

theorem performCode_of_decodes {c : Code} {i : Instr} (decodes : decode c = .ok i) (s : State) :
    performCode c s = exec i s := by
  simp only [performCode, decodes]

theorem performCode_of_no_record {c : Code} {err : DecodeError} (fails : decode c = .error err) (s : State) :
    performCode c s = .refused (.badRecord err) := by
  simp only [performCode, fails]

theorem step_of_idle {s : State} (new : s.waiting = none) (nothing : s.input = []) : step s = .next s := by
  simp only [step, performStep, performNext, performNothing, new, nothing]

theorem step_of_answered {s : State} {w : Waiting} (under : s.waiting = some w) (answered : s.answerAt 0 ≠ none) :
    step s = exec w.instr s := by
  obtain ⟨a, answer⟩ := Option.ne_none_iff_exists'.1 answered
  simp only [step, performStep, continueWaiting, under, answer]

theorem step_of_silent {s : State} {w : Waiting} (under : s.waiting = some w) (silent : s.answerAt 0 = none) :
    step s = performWaiting s.takeAnswer := by
  simp only [step, performStep, continueWaiting, under, silent]

/-- Settles O52: each clause is a way a step begins. -/
theorem stepRunsDecodedInstruction : Obligations.StepRunsDecodedInstruction := by
  unfold Obligations.StepRunsDecodedInstruction
  refine fun s => ⟨fun c rest i new next decodes => ?_, fun c rest err new next fails => ?_,
    fun new nothing => step_of_idle new nothing, fun w under answered => step_of_answered under answered⟩
  · rw [step_of_code new next, performCode_of_decodes decodes]
  · rw [step_of_code new next, performCode_of_no_record fails]

/-! The host's part while the block waits (R53; log 21). -/

theorem performWaiting_of_read {s : State} {rest : List Input} (next : s.input = .readStatus :: rest) :
    performWaiting s = .next s.takeInput.reportStatus := by
  simp only [performWaiting, next, perform]

theorem performWaiting_of_reset {s : State} {rest : List Input} (next : s.input = .hardwareReset :: rest) :
    performWaiting s = .next s.takeInput.hardwareReset := by
  simp only [performWaiting, next, perform]

/-- No command is taken. -/
theorem performWaiting_of_other {s : State} (noRead : ∀ rest, s.input ≠ .readStatus :: rest)
    (noReset : ∀ rest, s.input ≠ .hardwareReset :: rest) : performWaiting s = .next s := by
  match next : s.input with
  | [] => simp only [performWaiting, next]
  | .code c :: rest => simp only [performWaiting, next]
  | .readStatus :: rest => exact absurd next (noRead rest)
  | .hardwareReset :: rest => exact absurd next (noReset rest)

/-- Settles O58: STATUS does not depend on the sink's turns. -/
theorem waitingTakesNoCommand : Obligations.WaitingTakesNoCommand := by
  unfold Obligations.WaitingTakesNoCommand
  refine fun s w under silent => ⟨fun rest next => ?_, fun noRead noReset => ?_⟩
  · have taken : s.takeAnswer.takeInput = { s.takeAnswer with input := rest } := by
      rw [State.takeInput, State.takeAnswer_input, next]; rfl
    rw [step_of_silent under silent, performWaiting_of_read (s := s.takeAnswer) next, taken]
    rfl
  · rw [step_of_silent under silent]
    exact performWaiting_of_other noRead noReset

/-! Nothing stops the machine (R155, R176). -/

theorem perform_next {u : Input} (host : u.ofHost = true) (s : State) : ∃ t, perform u s = .next t := by
  match u with
  | .code (.command word) =>
    obtain ⟨t, e, -⟩ := exec_next (decodeCommand word) s
    exact ⟨t, (performCode_of_decodes (c := .command word) rfl s).trans e⟩
  | .code (.record bs) => cases host
  | .readStatus => exact ⟨_, rfl⟩
  | .hardwareReset => exact ⟨_, rfl⟩

theorem performWaiting_next (s : State) : ∃ t, performWaiting s = .next t := by
  match next : s.input with
  | [] => exact ⟨_, performWaiting_of_other (by simp [next]) (by simp [next])⟩
  | .code c :: rest => exact ⟨_, performWaiting_of_other (by simp [next]) (by simp [next])⟩
  | .readStatus :: rest => exact ⟨_, performWaiting_of_read next⟩
  | .hardwareReset :: rest => exact ⟨_, performWaiting_of_reset next⟩

theorem step_next {s : State} (host : s.HostOnly) : ∃ t, step s = .next t := by
  cases under : s.waiting with
  | none =>
    match next : s.input with
    | [] => exact ⟨s, step_of_idle under next⟩
    | u :: rest =>
      rw [step_of_new under next]
      exact perform_next (host u (by simp [next])) _
  | some w =>
    cases answer : s.answerAt 0 with
    | none =>
      rw [step_of_silent under answer]
      exact performWaiting_next _
    | some a =>
      obtain ⟨t, e, -⟩ := exec_next w.instr s
      exact ⟨t, (step_of_answered under (by simp [answer])).trans e⟩

/-- Settles O47: instructions and steps are total, and a step makes at most three appends, each answered. -/
theorem answeredInstructionsComplete : Obligations.AnsweredInstructionsComplete := by
  unfold Obligations.AnsweredInstructionsComplete
  refine ⟨fun i s => ?_, fun s host => step_next host, fun i s answers => ?_⟩
  · obtain ⟨t, e, -⟩ := exec_next i s
    exact ⟨t, e⟩
  · obtain ⟨t, e, ends⟩ := exec_next i s
    refine ⟨t, e, ?_⟩
    cases ends with
    | faulted | completed | failed => rfl
    | waits m u nf lt accepts silent =>
      have := s.appendsOf_length_le i
      exact absurd silent (answers m (by omega))

/-! A step that waited once (R53; log 4). -/

/-- The command `i` of a step from `s` that waited for one turn at its append `m`: the bytes of the appends before it
are accepted, and the answers still to come are those behind them. -/
def State.resumedAt (s : State) (i : Instr) (m : Nat) : State :=
  { s with
    out := s.out ++ ((s.appendsOf i).take m).flatten
    script := s.script.drop m
    turns := s.turns + m + 1
    waiting := some { instr := i, accepted := m } }

theorem State.resumedAt_sameBlock (s : State) (i : Instr) (m : Nat) : SameBlock (s.resumedAt i m) s := by
  simp [SameBlock, State.resumedAt]

theorem State.resumedAt_appendsOf (s : State) (i : Instr) (m : Nat) :
    (s.resumedAt i m).appendsOf i = s.appendsOf i :=
  (s.resumedAt_sameBlock i m).symm.appendsOf_eq i

theorem State.resumedAt_granted (s : State) (i : Instr) (m : Nat) : (s.resumedAt i m).granted = m := rfl

/-- Scripted answers do not depend on the turn. -/
theorem State.resumedAt_answerAt {s : State} {m k : Nat} (scripted : m + k < s.script.length) (i : Instr) :
    (s.resumedAt i m).answerAt k = s.answerAt (m + k) := by
  have here : s.script[m + k]? = some s.script[m + k] := List.getElem?_eq_getElem scripted
  rw [State.answerAt_of_script here]
  exact State.answerAt_of_script (by simp [State.resumedAt, here])

theorem State.resumedAt_sinkAccepts {s : State} {m n : Nat} (scripted : m + n ≤ s.script.length)
    (accepts : s.SinkAccepts (m + n)) (i : Instr) : (s.resumedAt i m).SinkAccepts n := fun k lt => by
  rw [State.resumedAt_answerAt (by omega)]
  exact accepts _ (by omega)

theorem SameBlock.begun {s t : State} (h : SameBlock s t) (i : Instr) : SameBlock (s.begun i) (t.begun i) := by
  rw [h.exists_eq]
  cases i <;> simp [SameBlock, State.begun]

/-- The block an instruction reaches is a function of the block alone. -/
theorem SameBlock.resultOf {s t : State} (h : SameBlock s t) (i : Instr) : SameBlock (s.resultOf i) (t.resultOf i) := by
  cases i with
  | pixel r g b a =>
    have fsm : t.fsm = s.fsm := by rw [h.exists_eq]
    by_cases active : s.fsm = .active
    · rw [State.resultOf_pixel active, State.resultOf_pixel (fsm.trans active), h.exists_eq]
      exact ⟨rfl, rfl, rfl, rfl, rfl, rfl, rfl, rfl⟩
    · rw [State.resultOf, State.resultOf, if_neg active, if_neg (fsm ▸ active)]
      exact h
  | _ => rw [h.exists_eq]; exact ⟨rfl, rfl, rfl, rfl, rfl, rfl, rfl, rfl⟩

/-- The resumed step's part behind append `m` leads where the whole step leads, one turn later. -/
theorem Extends.resumed {s t t' : State} {i : Instr} {m n : Nat} {bs : List Byte}
    (whole : Extends (s.begun i) (m + n) (((s.appendsOf i).take m).flatten ++ bs) t)
    (part : Extends ((s.resumedAt i m).begun i) n bs t') : Extends { t with turns := t.turns + 1 } 0 [] t' := by
  obtain ⟨-, -, -, -, width, height, -⟩ := (s.resumedAt_sameBlock i m).begun i
  obtain ⟨out₁, script₁, turns₁, width₁, height₁, input₁, reads₁, draws₁⟩ := whole
  obtain ⟨out₂, script₂, turns₂, width₂, height₂, input₂, reads₂, draws₂⟩ := part
  simp only [State.begun_out, State.begun_script, State.begun_turns, State.begun_input, State.begun_statusReads,
    State.begun_draws] at *
  refine ⟨?_, ?_, ?_, ?_, ?_, ?_, ?_, ?_⟩
  · simp [out₁, out₂, State.resumedAt]
  · simp [script₁, script₂, State.resumedAt]
  · simp only [turns₁, turns₂, State.resumedAt]; omega
  · exact width₂.trans (width.trans width₁.symm)
  · exact height₂.trans (height.trans height₁.symm)
  · exact input₂.trans input₁.symm
  · exact reads₂.trans reads₁.symm
  · exact draws₂.trans draws₁.symm

/-- With the block, all of a state but the command under way is compared. -/
theorem Extends.settle_eq {s t : State} (ext : Extends s 0 [] t) (same : SameBlock t s) : t.settle = s.settle := by
  obtain ⟨out, script, turns, -, -, input, statusReads, draws⟩ := ext
  exact State.eq_of_same same ⟨by simpa using out, input, rfl, script, turns, draws, statusReads⟩

/-- A fault leaves nothing of the rest of the block (R37). -/
theorem Extends.raise_eq {s t : State} (ext : Extends s 0 [] t) (f : FaultInfo) :
    (t.raise f).settle = (s.raise f).settle := by
  obtain ⟨out, script, turns, width, height, input, statusReads, draws⟩ := ext
  refine State.eq_of_same (by simp [SameBlock, width, height, draws])
    ⟨?_, input, rfl, script, turns, ?_, statusReads⟩
  · simpa using out
  · simp [draws]

/-- A resumed step gives what the step answered at once gives, one turn later. -/
theorem exec_resumedAt {i : Instr} {s t : State} {m : Nat} (new : s.waiting = none)
    (lt : m < (s.appendsOf i).length) (accepts : s.SinkAccepts m) (scripted : m + 3 ≤ s.script.length)
    (e : exec i s = .next t) : exec i (s.resumedAt i m) = .next { t with turns := t.turns + 1 } := by
  have first := State.granted_of_none new
  have atMost := s.appendsOf_length_le i
  have appends := s.resumedAt_appendsOf i m
  have granted := s.resumedAt_granted i m
  cases exec_ends e with
  | faulted f fault => simp [State.appendsOf_of_fault fault] at lt
  | completed t nf all ext same =>
    obtain ⟨n, len⟩ := Nat.exists_eq_add_of_le lt.le
    rw [first, len, Nat.sub_zero] at all ext
    obtain ⟨t', e', same', ext'⟩ := exec_of_accepts (i := i) (s := s.resumedAt i m)
      (State.faultOf_of_appends (m := m) (by rw [appends]; exact lt))
      (by rw [appends, granted, len]; exact State.resumedAt_sinkAccepts (by omega) (by simpa using all) i)
    rw [appends, granted, len, Nat.add_sub_cancel_left] at ext'
    have whole : ((s.appendsOf i).drop 0).flatten =
        ((s.appendsOf i).take m).flatten ++ ((s.appendsOf i).drop m).flatten := by
      rw [← List.flatten_append, List.take_append_drop, List.drop_zero]
    rw [whole] at ext
    have block := (s.resumedAt_sameBlock i m).resultOf i
    rw [e', (ext.resumed ext').settle_eq (same'.trans (block.trans same.symm))]
    rfl
  | failed j k u nf lt' accepts' fails ext =>
    obtain ⟨n, rfl⟩ := Nat.exists_eq_add_of_le (accepts.le_of_not_accept (n := j) (by simp [fails]))
    obtain ⟨u', e', ext'⟩ := exec_of_fails (i := i) (s := s.resumedAt i m) (m := n) (k := k)
      (by rw [appends, granted]; omega) (State.resumedAt_sinkAccepts (by omega) accepts' i)
      (by rw [State.resumedAt_answerAt (by omega), fails])
    rw [first, Nat.zero_add, List.drop_zero, List.take_add, List.flatten_append, List.append_assoc] at ext
    rw [appends, granted] at ext'
    rw [e', (ext.resumed (n := n + 1) ext').raise_eq]
    rfl
  | waits j u nf lt' accepts' silent =>
    obtain ⟨n, rfl⟩ := Nat.exists_eq_add_of_le (accepts.le_of_not_accept (n := j) (by simp [silent]))
    have e' := exec_of_silent (i := i) (s := s.resumedAt i m) (m := n)
      (by rw [appends, granted]; omega) (State.resumedAt_sinkAccepts (by omega) accepts' i)
      (by rw [State.resumedAt_answerAt (by omega), silent])
    rw [e', Host.Outcome.next.inj (e.symm.trans (exec_of_silent lt' accepts' silent)), appends, granted, first]
    simp [State.resumedAt, List.take_add]
    omega

/-- Settles O59: the step waits at its append `m`, and the step that resumes it is `exec` at that append. -/
theorem resumedStepIsTheSame : Obligations.ResumedStepIsTheSame := by
  unfold Obligations.ResumedStepIsTheSame
  intro i s u m a rest new script enough e waits
  have first := State.granted_of_none new
  have accepts : s.SinkAccepts m := State.sinkAccepts_of_script script
  have silent : s.answerAt m = none := State.answerAt_of_script (by simp [script])
  have lt : m < (s.appendsOf i).length := by
    cases exec_ends e with
    | faulted f fault | completed t nf all | failed j k u nf lt => exact absurd rfl waits
    | waits j u nf lt accepts' silent' =>
      obtain rfl := accepts.first_unique accepts' (by simp [silent]) (by simp [silent'])
      omega
  have resumes : u = State.resumedAt { s with script := List.replicate m (some .accept) ++ some a :: rest } i m := by
    have behind : s.script.drop (m + 1) = some a :: rest := by simp [script, List.drop_append]
    have scripted : (List.replicate m (some SinkAnswer.accept) ++ some a :: rest).drop m = some a :: rest := by simp
    rw [Host.Outcome.next.inj (e.symm.trans (exec_of_silent (by omega) accepts silent)), first, Nat.zero_add,
      List.drop_zero, behind, State.resumedAt, scripted]
    rfl
  obtain ⟨t, e', -⟩ := exec_next i { s with script := List.replicate m (some .accept) ++ some a :: rest }
  refine ⟨t, e', ?_⟩
  rw [resumes, step_of_answered rfl (by simp [State.answerAt, State.resumedAt])]
  exact exec_resumedAt new lt (State.sinkAccepts_of_script rfl) (by simp; omega) e'

end Sys2Proof.Machine
end

section
/-! The decoder on encoded instructions (spec/30_encoding.md R70 to R84): every well-formed one is read back, a chunk
from the stream by its first byte's length. -/

namespace Sys2Proof.Machine

/-! Command words (R70 to R73). -/

theorem op_commandWord (op : BitVec 2) (payload : BitVec 64) : CommandWord.op (commandWord op payload) = op :=
  BitVec.extractLsb'_append_eq_left

theorem decodeCommand_of_op_start {word : CommandWord} (op : CommandWord.op word = 0b01) :
    decodeCommand word = .start (word.extractLsb' 32 32) (word.extractLsb' 0 32) := by
  simp [decodeCommand, CommandWord.isReserved, op]

theorem decodeCommand_of_op_pixel {word : CommandWord} (op : CommandWord.op word = 0b10)
    (zero : word.extractLsb' 32 32 = 0) :
    decodeCommand word = .pixel (word.extractLsb' 24 8) (word.extractLsb' 16 8) (word.extractLsb' 8 8)
      (word.extractLsb' 0 8) := by
  simp [decodeCommand, CommandWord.isReserved, op, zero]

/-- A field of a word is read off its number. -/
theorem field_eq {n len : Nat} {word : BitVec n} {start : Nat} {x : BitVec len}
    (h : word.toNat / 2 ^ start % 2 ^ len = x.toNat) : word.extractLsb' start len = x :=
  BitVec.eq_of_toNat_eq ((toNat_field word start len).trans h)

theorem decodeCommand_start (w h : BitVec 32) : decodeCommand (commandWord 0b01 (w ++ h)) = .start w h := by
  have number : (commandWord 0b01 (w ++ h)).toNat = 2 ^ 64 + (w.toNat * 2 ^ 32 + h.toNat) := by
    rw [toNat_commandWord, toNat_concat w h]; rfl
  have := w.isLt
  have := h.isLt
  rw [decodeCommand_of_op_start (op_commandWord _ _), field_eq (x := w) (by omega), field_eq (x := h) (by omega)]

theorem decodeCommand_pixel (r g b a : Byte) :
    decodeCommand (commandWord 0b10 (0#32 ++ r ++ g ++ b ++ a)) = .pixel r g b a := by
  have number : (commandWord 0b10 (0#32 ++ r ++ g ++ b ++ a)).toNat =
      2 * 2 ^ 64 + (((r.toNat * 2 ^ 8 + g.toNat) * 2 ^ 8 + b.toNat) * 2 ^ 8 + a.toNat) := by
    rw [toNat_commandWord, toNat_concat (0#32 ++ r ++ g ++ b) a, toNat_concat (0#32 ++ r ++ g) b,
      toNat_concat (0#32 ++ r) g, toNat_concat 0#32 r]
    simp
  have := r.isLt
  have := g.isLt
  have := b.isLt
  have := a.isLt
  have zero : (commandWord 0b10 (0#32 ++ r ++ g ++ b ++ a)).extractLsb' 32 32 = 0#32 :=
    field_eq (by simp only [BitVec.toNat_ofNat]; omega)
  rw [decodeCommand_of_op_pixel (op_commandWord _ _) zero, field_eq (x := r) (by omega), field_eq (x := g) (by omega),
    field_eq (x := b) (by omega), field_eq (x := a) (by omega)]

theorem decodeCommand_reserved {word : CommandWord} (h : CommandWord.isReserved word = true) :
    decodeCommand word = .reserved word := if_pos h

/-! Chunks (R77 to R83). -/

/-- The bytes of a chunk, as the cutter meets them: the first byte gives the length, and those bytes the chunk. -/
def CutsOff (i : Instr) : Prop :=
  ∃ b0 rest, recordBytes i = b0 :: rest ∧ chunkLength b0 = rest.length + 1 ∧ decodeChunk b0 rest = .ok i

/-- Below 0xFE a first byte is none of the full-byte tags (R77). -/
theorem not_full_tag {b0 : Byte} (lt : b0.toNat < 0xFE) : b0 ≠ 255#8 ∧ b0 ≠ 254#8 := by
  constructor <;> rintro rfl <;> simp at lt

theorem chunkLength_one {b0 : Byte} (lt : b0.toNat < 0xFE) (tag : b0.extractLsb' 6 2 ≠ 0b10) : chunkLength b0 = 1 := by
  obtain ⟨ff, fe⟩ := not_full_tag lt
  simpa [chunkLength, ff, fe] using tag

theorem index_cutsOff (i : Slot) : CutsOff (.index i) := by
  obtain ⟨b0, eq⟩ : ∃ b0 : Byte, b0 = 0b00#2 ++ i := ⟨_, rfl⟩
  have number : b0.toNat = i.toNat := by rw [eq, toNat_concat 0b00#2 i]; simp
  have := i.isLt
  have tag : b0.extractLsb' 6 2 = 0b00#2 := eq ▸ BitVec.extractLsb'_append_eq_left
  have field : b0.extractLsb' 0 6 = i := eq ▸ BitVec.extractLsb'_append_eq_right
  obtain ⟨ff, fe⟩ := not_full_tag (b0 := b0) (by omega)
  exact ⟨b0, [], eq ▸ rfl, chunkLength_one (by omega) (by simp [tag]), by simp [decodeChunk, ff, fe, tag, field]⟩

theorem diff_cutsOff (dr dg db : BitVec 2) : CutsOff (.diff dr dg db) := by
  obtain ⟨b0, eq⟩ : ∃ b0 : Byte, b0 = 0b01#2 ++ dr ++ dg ++ db := ⟨_, rfl⟩
  have number : b0.toNat = ((2 ^ 2 + dr.toNat) * 2 ^ 2 + dg.toNat) * 2 ^ 2 + db.toNat := by
    rw [eq, toNat_concat (0b01#2 ++ dr ++ dg) db, toNat_concat (0b01#2 ++ dr) dg, toNat_concat 0b01#2 dr]; rfl
  have := dr.isLt
  have := dg.isLt
  have := db.isLt
  have tag : b0.extractLsb' 6 2 = 0b01#2 := field_eq (by simp only [BitVec.toNat_ofNat]; omega)
  have red : b0.extractLsb' 4 2 = dr := field_eq (by omega)
  have green : b0.extractLsb' 2 2 = dg := field_eq (by omega)
  have blue : b0.extractLsb' 0 2 = db := field_eq (by omega)
  obtain ⟨ff, fe⟩ := not_full_tag (b0 := b0) (by omega)
  exact ⟨b0, [], eq ▸ rfl, chunkLength_one (by omega) (by simp [tag]),
    by simp [decodeChunk, ff, fe, tag, red, green, blue]⟩

theorem luma_cutsOff (dg : BitVec 6) (drdg dbdg : BitVec 4) : CutsOff (.luma dg drdg dbdg) := by
  obtain ⟨b0, eq⟩ : ∃ b0 : Byte, b0 = 0b10#2 ++ dg := ⟨_, rfl⟩
  obtain ⟨b1, eq1⟩ : ∃ b1 : Byte, b1 = drdg ++ dbdg := ⟨_, rfl⟩
  have number : b0.toNat = 2 * 2 ^ 6 + dg.toNat := by rw [eq, toNat_concat 0b10#2 dg]; rfl
  have := dg.isLt
  have tag : b0.extractLsb' 6 2 = 0b10#2 := eq ▸ BitVec.extractLsb'_append_eq_left
  have green : b0.extractLsb' 0 6 = dg := eq ▸ BitVec.extractLsb'_append_eq_right
  have red : b1.extractLsb' 4 4 = drdg := eq1 ▸ BitVec.extractLsb'_append_eq_left
  have blue : b1.extractLsb' 0 4 = dbdg := eq1 ▸ BitVec.extractLsb'_append_eq_right
  obtain ⟨ff, fe⟩ := not_full_tag (b0 := b0) (by omega)
  exact ⟨b0, [b1], eq ▸ eq1 ▸ rfl, by simp [chunkLength, ff, fe, tag],
    by simp [decodeChunk, ff, fe, tag, green, red, blue]⟩

theorem run_cutsOff {n : BitVec 6} (lt : n.toNat < 62) : CutsOff (.run n) := by
  obtain ⟨b0, eq⟩ : ∃ b0 : Byte, b0 = 0b11#2 ++ n := ⟨_, rfl⟩
  have number : b0.toNat = 3 * 2 ^ 6 + n.toNat := by rw [eq, toNat_concat 0b11#2 n]; rfl
  have tag : b0.extractLsb' 6 2 = 0b11#2 := eq ▸ BitVec.extractLsb'_append_eq_left
  have field : b0.extractLsb' 0 6 = n := eq ▸ BitVec.extractLsb'_append_eq_right
  obtain ⟨ff, fe⟩ := not_full_tag (b0 := b0) (by omega)
  exact ⟨b0, [], eq ▸ rfl, chunkLength_one (by omega) (by simp [tag]), by simp [decodeChunk, ff, fe, tag, field]⟩

theorem chunk_cutsOff {i : Instr} (chunk : isChunk i = true) (wf : WellFormed i) : CutsOff i := by
  cases i with
  | index i => exact index_cutsOff i
  | diff dr dg db => exact diff_cutsOff dr dg db
  | luma dg drdg dbdg => exact luma_cutsOff dg drdg dbdg
  | run n => exact run_cutsOff (of_decide_eq_true wf)
  | rgb r g b => exact ⟨0xFE, [r, g, b], rfl, rfl, rfl⟩
  | rgba r g b a => exact ⟨0xFF, [r, g, b, a], rfl, rfl, rfl⟩
  | _ => cases chunk

theorem chunkLength_le (b0 : Byte) : chunkLength b0 ≤ 5 := by
  unfold chunkLength
  repeat' split
  all_goals omega

/-- A whole record of at most five bytes is a chunk (R77, R84). -/
theorem decodeRecord_of_cutsOff {i : Instr} (cuts : CutsOff i) : decodeRecord (recordBytes i) = .ok i := by
  obtain ⟨b0, rest, bytes, length, decodes⟩ := cuts
  have short := chunkLength_le b0
  have not14 : rest.length + 1 ≠ 14 := by omega
  have not8 : rest.length + 1 ≠ 8 := by omega
  simp [decodeRecord, bytes, not14, not8, decodes]

/-! The other records (R75, R76). -/

theorem decodeRecord_header (w h : BitVec 32) : decodeRecord (headerBytes w h) = .ok (.header w h) := by
  simp [decodeRecord, headerBytes, be32, decodeHeader, concat_be32]

theorem decode_encode_chunk {i : Instr} (chunk : isChunk i = true) (wf : WellFormed i) : decode (encode i) = .ok i := by
  have record : encode i = .record (recordBytes i) := by
    cases i with
    | start | pixel | reserved | header | endMarker => cases chunk
    | _ => rfl
  rw [record]
  exact decodeRecord_of_cutsOff (chunk_cutsOff chunk wf)

/-- Every well-formed instruction is what its encoding decodes to (R70 to R83). -/
theorem decode_encode {i : Instr} (wf : WellFormed i) : decode (encode i) = .ok i := by
  cases i with
  | start w h => exact congrArg _ (decodeCommand_start w h)
  | pixel r g b a => exact congrArg _ (decodeCommand_pixel r g b a)
  | reserved word => exact congrArg _ (decodeCommand_reserved wf)
  | header w h => exact decodeRecord_header w h
  | endMarker => rfl
  | _ => exact decode_encode_chunk rfl wf

/-- Settles O53: the code placed is the next interaction, and it decodes to the instruction. -/
theorem stepRunsEncodedInstruction : Obligations.StepRunsEncodedInstruction := by
  unfold Obligations.StepRunsEncodedInstruction
  intro i s wf new
  exact (step_of_code (s := { s with input := .code (encode i) :: s.input }) new rfl).trans
    (performCode_of_decodes (decode_encode wf) s)

/-! The cutting of a stream (R84). -/

theorem cutChunksFuel_append {i : Instr} (cuts : CutsOff i) (fuel : Nat) (bs : List Byte) :
    cutChunksFuel (fuel + 1) (recordBytes i ++ bs) = (cutChunksFuel fuel bs).map (i :: ·) := by
  obtain ⟨b0, rest, bytes, length, decodes⟩ := cuts
  simp [bytes, cutChunksFuel, length, decodes]

/-- The fuel need only reach the number of chunks. -/
theorem cutChunksFuel_recordBytes {is : List Instr} (cuts : ∀ i ∈ is, CutsOff i) :
    ∀ {fuel : Nat}, is.length ≤ fuel → cutChunksFuel fuel (is.flatMap recordBytes) = some is := by
  induction is with
  | nil => intro fuel _; simp [cutChunksFuel]
  | cons i is ih =>
    intro fuel enough
    obtain ⟨cut, cuts⟩ := List.forall_mem_cons.1 cuts
    obtain ⟨fuel, rfl⟩ := Nat.exists_eq_add_of_le' enough
    rw [List.flatMap_cons, List.length_cons, ← Nat.add_assoc, cutChunksFuel_append cut, ih cuts (by omega)]
    rfl

theorem CutsOff.length_pos {i : Instr} (cuts : CutsOff i) : 1 ≤ (recordBytes i).length := by
  obtain ⟨b0, rest, bytes, -, -⟩ := cuts
  simp [bytes]

theorem length_le_flatMap_recordBytes {is : List Instr} (cuts : ∀ i ∈ is, CutsOff i) :
    is.length ≤ (is.flatMap recordBytes).length := by
  have := List.length_le_sum_of_one_le (is.map fun i => (recordBytes i).length) (by
    simpa using fun i mem => (cuts i mem).length_pos)
  simpa [List.length_flatMap] using this

/-- A stream of chunks is cut into its chunks (R84). -/
theorem cutChunks_recordBytes {is : List Instr} (cuts : ∀ i ∈ is, CutsOff i) :
    cutChunks (is.flatMap recordBytes) = some is :=
  cutChunksFuel_recordBytes cuts (length_le_flatMap_recordBytes cuts)

end Sys2Proof.Machine
end

section
/-! A whole encode (R60, R84, R85, R113): what a reader of the chunks written so far knows, kept along the PIXEL
commands up to the end marker. -/

namespace Sys2Proof.Machine

/-! Reading chunks back (R85). -/

@[simp] theorem Reader.see_prev (d : Reader) (p : Pixel) : (d.see p).prev = p := rfl

theorem Reader.readAll_append (d : Reader) (is js : List Instr) :
    d.readAll (is ++ js) = d.readAll is ++ ((d.readAll is).foldl Reader.see d).readAll js := by
  induction is generalizing d with
  | nil => rfl
  | cons i is ih => simp [Reader.readAll, ih, List.foldl_append]

theorem Reader.readAll_singleton (d : Reader) (i : Instr) : d.readAll [i] = d.pixels i := by
  simp [Reader.readAll]

/-- A field that fits is the delta again once it is read back (R79, R85). -/
theorem recoverDiffChannel_biasedDelta {x y : Byte} (fits : (biasedDelta x y 2).toNat ≤ 3) :
    recoverDiffChannel y ((biasedDelta x y 2).setWidth 2) = x := by
  have field : ((biasedDelta x y 2).setWidth 2).setWidth 8 = biasedDelta x y 2 := by bv_omega
  rw [recoverDiffChannel, field, biasedDelta]
  bv_omega

theorem recoverDiff_diffFields {p q : Pixel} (alpha : p.a = q.a) (fits : diffFits p q = true) :
    recoverDiff q ((diffFields p q).dr.setWidth 2) ((diffFields p q).dg.setWidth 2)
      ((diffFields p q).db.setWidth 2) = p := by
  obtain ⟨red, green, blue⟩ := of_decide_eq_true fits
  simp only [recoverDiff, diffFields, recoverDiffChannel_biasedDelta red, recoverDiffChannel_biasedDelta green,
    recoverDiffChannel_biasedDelta blue, ← alpha]

theorem recoverLuma_lumaFields {p q : Pixel} (alpha : p.a = q.a) (fits : lumaFits p q = true) :
    recoverLuma q ((lumaFields p q).lg.setWidth 6) ((lumaFields p q).lrg.setWidth 4)
      ((lumaFields p q).lbg.setWidth 4) = p := by
  obtain ⟨green, red, blue⟩ := of_decide_eq_true fits
  have wide6 : ∀ f : Byte, f.toNat ≤ 63 → (f.setWidth 6).setWidth 8 = f := fun f le => by bv_omega
  have wide4 : ∀ f : Byte, f.toNat ≤ 15 → (f.setWidth 4).setWidth 8 = f := fun f le => by bv_omega
  have channel : ∀ x y vg : Byte, y + (vg + (x - y - vg + 8) - 8) = x := fun x y vg => by bv_omega
  have greens : ∀ x y : Byte, x - y + 32 - 32 = x - y := fun x y => by bv_omega
  have restored : ∀ x y : Byte, y + (x - y) = x := fun x y => by bv_omega
  simp only [recoverLuma, wide6 _ green, wide4 _ red, wide4 _ blue]
  simp only [lumaFields, biasedDelta, greens, channel, restored, ← alpha]

/-- The chunk of a pixel stands for that pixel, to a reader that knows prev and, where it is an INDEX, the slot (R85,
R114). -/
theorem Reader.pixels_chunkFor (d : Reader) (p : Pixel) {hit : Bool}
    (slot : hit = true → d.cache[(pixelHash p).toNat]'(pixelHash p).isLt = p) :
    d.pixels (chunkFor p d.prev hit) = [p] := by
  unfold chunkFor
  split
  · rename_i h; simp [Reader.pixels, slot h]
  split
  · rfl
  rename_i alpha
  rw [ne_eq, not_not] at alpha
  split
  · rename_i fits; simp [Reader.pixels, recoverDiff_diffFields alpha fits]
  split
  · rename_i fits; simp [Reader.pixels, recoverLuma_lumaFields alpha fits]
  · simp [Reader.pixels, recoverRgb, ← alpha]

/-! How many bytes the chunks of so many pixels have (R77, R143). -/

/-- A chunk has at most five bytes and stands for at least one pixel. -/
theorem recordBytes_length_le {i : Instr} (chunk : isChunk i = true) (d : Reader) :
    (recordBytes i).length ≤ 5 * (d.pixels i).length := by
  cases i with
  | run n => simp [Reader.pixels, recordBytes, encode, runBytes]; omega
  | start | pixel | reserved | header | endMarker => cases chunk
  | _ => simp [Reader.pixels, recordBytes, encode, indexBytes, diffBytes, lumaBytes, rgbBytes, rgbaBytes]

theorem flatMap_recordBytes_length_le {is : List Instr} (chunks : ∀ i ∈ is, isChunk i = true) (d : Reader) :
    (is.flatMap recordBytes).length ≤ 5 * (d.readAll is).length := by
  induction is generalizing d with
  | nil => simp
  | cons i is ih =>
    obtain ⟨chunk, chunks⟩ := List.forall_mem_cons.1 chunks
    have one := recordBytes_length_le chunk d
    have others := ih chunks ((d.pixels i).foldl Reader.see d)
    simp only [List.flatMap_cons, Reader.readAll, List.length_append]
    omega

/-! The chunks of a PIXEL step (R113 to R118). -/

/-- The chunk that closes an open run (R116, R140). -/
def flushChunks (n : BitVec 6) : List Instr := if n = 0 then [] else [.run (n - 1)]

/-- The chunks of the pixel itself (R115, R116, R119). -/
def ownChunks (s : State) (p : Pixel) : List Instr :=
  if p = s.prev then if s.run.toNat = 61 then flushChunks 62 else []
  else flushChunks s.run ++ [chunkFor p s.prev (s.cacheHit p)]

/-- All chunks of the step: the pixel's own, and on the last pixel the finalizer's flush (R118, R140). -/
def pixelChunks (s : State) (p : Pixel) : List Instr :=
  ownChunks s p ++ if isLastPixel s then flushChunks (runAfter s p) else []

theorem flushChunks_bytes (n : BitVec 6) : (flushChunks n).flatMap recordBytes = (flushAppends n).flatten := by
  by_cases closed : n = 0
  · simp [flushChunks, closed, flushAppends]
  · rw [flushChunks, if_neg closed, flushAppends_open n closed]; rfl

theorem ownChunks_bytes (s : State) (p : Pixel) : (ownChunks s p).flatMap recordBytes = (ownAppends s p).flatten := by
  unfold ownChunks ownAppends
  split
  · split <;> rfl
  · simp [flushChunks_bytes]

/-- The bytes of the step are those of its chunks, and the end marker on the last pixel. -/
theorem pixelChunks_bytes (s : State) (p : Pixel) :
    (pixelAppends s p).flatten =
      (pixelChunks s p).flatMap recordBytes ++ if isLastPixel s then endMarkerBytes else [] := by
  rw [pixelAppends, pixelChunks, List.flatten_append, List.flatMap_append, ownChunks_bytes, lastAppends]
  cases isLastPixel s
  · simp
  · simp [finalizerAppends, flushChunks_bytes, endMarkerBytes]

/-! What a reader of the chunks so far knows (R85). -/

/-- What a reader holds that has seen every pixel the block has. -/
def State.view (s : State) : Reader := { prev := s.prev, cache := s.cache }

@[simp] theorem State.view_prev (s : State) : s.view.prev = s.prev := rfl

theorem pixelResult_view (s : State) (p : Pixel) : (pixelResult s p).view = s.view.see p := by
  by_cases w : p = s.prev ∨ s.cacheHit p = false
  · simp [State.view, Reader.see, pixelResult, w]
  · have hit : s.readCache (pixelHash p) = p := (s.cacheHit_iff p).1 (by simpa using (not_or.1 w).2)
    have same : s.cache.set (pixelHash p).toNat p (pixelHash p).isLt = s.cache := by
      have := congrArg State.cache (s.writeCache_readCache (pixelHash p))
      rwa [hit] at this
    simp [State.view, Reader.see, pixelResult, w, same]

/-- The chunks `cs` stand for the pixels `px` but for the last `n`, an open run of the previous pixel; `r` has seen all
of `px`. -/
structure Written (r : Reader) (n : Nat) (px : List Pixel) (cs : List Instr) : Prop where
  chunks : ∀ i ∈ cs, isChunk i = true ∧ WellFormed i
  pixels : Reader.start.readAll cs ++ List.replicate n r.prev = px
  seen : px.foldl Reader.see Reader.start = r
  before : ((Reader.start.readAll cs).foldl Reader.see Reader.start).prev = r.prev

theorem Written.start : Written Reader.start 0 [] [] := ⟨by simp, rfl, rfl, rfl⟩

/-- With no run open the reader of the chunks has seen every pixel. -/
theorem Written.of_closed {r : Reader} {px : List Pixel} {cs : List Instr}
    (chunks : ∀ i ∈ cs, isChunk i = true ∧ WellFormed i) (pixels : Reader.start.readAll cs = px)
    (seen : px.foldl Reader.see Reader.start = r) : Written r 0 px cs :=
  ⟨chunks, by simpa using pixels, seen, by rw [pixels, seen]⟩

/-- The previous pixel once more opens or lengthens the run (R115). -/
theorem Written.grow {r : Reader} {n : Nat} {px : List Pixel} {cs : List Instr} (h : Written r n px cs) :
    Written (r.see r.prev) (n + 1) (px ++ [r.prev]) cs := by
  obtain ⟨chunks, pixels, seen, before⟩ := h
  refine ⟨chunks, ?_, by simp [seen], before⟩
  rw [← pixels, Reader.see_prev, List.replicate_succ', List.append_assoc]

theorem Reader.readAll_flushChunks (d : Reader) (n : BitVec 6) :
    d.readAll (flushChunks n) = List.replicate n.toNat d.prev := by
  by_cases closed : n = 0
  · simp [flushChunks, closed, Reader.readAll]
  · have length : (n - 1).toNat + 1 = n.toNat := by bv_omega
    rw [flushChunks, if_neg closed, Reader.readAll_singleton, Reader.pixels, length]

theorem flushChunks_wf {n : BitVec 6} (le : n.toNat ≤ 62) :
    ∀ i ∈ flushChunks n, isChunk i = true ∧ WellFormed i := by
  unfold flushChunks
  split
  · simp
  · rename_i opened
    have below : (n - 1).toNat < 62 := by bv_omega
    simpa [isChunk, WellFormed, Instr.wellFormed] using below

/-- The flush writes the open run (R116, R140). -/
theorem Written.flush {r : Reader} {n : BitVec 6} {px : List Pixel} {cs : List Instr}
    (h : Written r n.toNat px cs) (le : n.toNat ≤ 62) : Written r 0 px (cs ++ flushChunks n) := by
  obtain ⟨chunks, pixels, seen, before⟩ := h
  refine .of_closed (List.forall_mem_append.2 ⟨chunks, flushChunks_wf le⟩) ?_ seen
  rw [Reader.readAll_append, Reader.readAll_flushChunks, before, pixels]

/-- With no run open, the pixel's own chunk stands for it (R114). -/
theorem Written.chunk {r : Reader} {px : List Pixel} {cs : List Instr} (h : Written r 0 px cs) (p : Pixel) {hit : Bool}
    (slot : hit = true → r.cache[(pixelHash p).toNat]'(pixelHash p).isLt = p) :
    Written (r.see p) 0 (px ++ [p]) (cs ++ [chunkFor p r.prev hit]) := by
  obtain ⟨chunks, pixels, seen, -⟩ := h
  obtain ⟨chunk, wf, -⟩ := chunkFor_nonRun p r.prev hit
  refine .of_closed (List.forall_mem_append.2 ⟨chunks, List.forall_mem_singleton.2 ⟨chunk, wf⟩⟩) ?_ (by simp [seen])
  rw [List.replicate_zero, List.append_nil] at pixels
  rw [Reader.readAll_append, pixels, seen, Reader.readAll_singleton, r.pixels_chunkFor p slot]

/-- The decision of a PIXEL step writes the pixel, or takes it into the open run (R113). -/
theorem Written.own {s : State} {px : List Pixel} {cs : List Instr} (h : Written s.view s.run.toNat px cs)
    (rests : s.run.toNat ≤ 61) (p : Pixel) :
    Written (s.view.see p) (runAfter s p).toNat (px ++ [p]) (cs ++ ownChunks s p) := by
  by_cases same : p = s.prev
  · subst same
    by_cases cap : s.run.toNat = 61
    · have capped := h.grow
      rw [cap] at capped
      simpa [runAfter, ownChunks, cap] using capped.flush (n := 62) (by decide)
    · have next : (s.run + 1).toNat = s.run.toNat + 1 := by bv_omega
      have run : runAfter s s.prev = s.run + 1 := by simp [runAfter, cap]
      rw [run, next]
      simpa [ownChunks, cap] using h.grow
  · have chunk := (h.flush (by omega)).chunk p (hit := s.cacheHit p) (s.cacheHit_iff p).1
    simpa [runAfter, ownChunks, same] using chunk

/-- A whole PIXEL step, with the finalizer's flush on the last pixel (R118, R140). -/
theorem Written.pixel {s : State} {px : List Pixel} {cs : List Instr} (h : Written s.view s.run.toNat px cs)
    (rests : s.run.toNat ≤ 61) (p : Pixel) :
    Written (pixelResult s p).view (pixelResult s p).run.toNat (px ++ [p]) (cs ++ pixelChunks s p) := by
  have own := h.own rests p
  obtain ⟨le, -⟩ := runAfter_le rests p
  rw [pixelResult_view]
  cases last : isLastPixel s
  · simpa [pixelResult, pixelChunks, last] using own
  · simpa [pixelResult, pixelChunks, last] using own.flush (by omega)

/-! The commands of an encode, one after the other (R60, R172). -/

/-- A PIXEL command with an accepting sink (R113). -/
theorem exec_pixel_of_accepts {s : State} (p : Pixel) (new : s.waiting = none) (active : s.fsm = .active)
    (accepts : s.SinkAccepts (pixelAppends s p).length) : exec (pixelCommand p) s = .next (pixelResult s p) := by
  have nf : s.faultOf (pixelCommand p) = none := State.faultOf_pixel active _ _ _ _
  have appends : s.appendsOf (pixelCommand p) = pixelAppends s p := State.appendsOf_pixel active _ _ _ _
  have result : s.resultOf (pixelCommand p) = pixelResult s p := State.resultOf_pixel active _ _ _ _
  have first := State.granted_of_none new
  obtain ⟨t, e, same, ext⟩ := exec_of_accepts nf (by simpa [appends, first] using accepts)
  rw [appends, first, List.drop_zero, Nat.sub_zero] at ext
  obtain ⟨out, script, turns, -, -, input, statusReads, draws⟩ := ext
  rw [e]
  congr 1
  exact State.eq_of_same (result ▸ same) ⟨out, input, new.symm, script, turns, draws, statusReads⟩

theorem State.BlockInv.count_lt {s : State} (inv : s.BlockInv) (active : s.fsm = .active) :
    s.count.toNat < s.pixelTotal := by
  obtain ⟨-, encode, -⟩ := inv
  exact (encode active).2

theorem State.BlockInv.run_le {s : State} (inv : s.BlockInv) (active : s.fsm = .active) : s.run.toNat ≤ 61 := by
  obtain ⟨-, encode, -⟩ := inv
  obtain ⟨⟨-, rests, -⟩, -⟩ := encode active
  exact rests

/-- An encode that has consumed the pixels `px` and written the chunks `cs` behind `base`. -/
structure Encoding (base : List Byte) (s : State) (px : List Pixel) (cs : List Instr) : Prop where
  new : s.waiting = none
  block : s.BlockInv
  out : s.out = base ++ cs.flatMap recordBytes ++ if s.fsm = .done then endMarkerBytes else []
  written : Written s.view s.run.toNat px cs

theorem Encoding.pixel {base : List Byte} {s : State} {px : List Pixel} {cs : List Instr} (h : Encoding base s px cs)
    (active : s.fsm = .active) (p : Pixel) :
    Encoding base (pixelResult s p) (px ++ [p]) (cs ++ pixelChunks s p) := by
  obtain ⟨new, block, out, written⟩ := h
  refine ⟨new, pixelResult_blockInv block active p, ?_, written.pixel (block.run_le active) p⟩
  have own : (pixelResult s p).out = s.out ++ (pixelAppends s p).flatten := rfl
  rw [own, out, pixelChunks_bytes]
  cases last : isLastPixel s <;> simp [active, pixelResult, last]

/-- The PIXEL commands still to come end the encode (R118, R140). -/
theorem Encoding.pixels {base : List Byte} (ps : List Pixel) : ∀ {s : State} {px : List Pixel} {cs : List Instr},
    Encoding base s px cs → s.fsm = .active → s.count.toNat + ps.length = s.pixelTotal →
    s.SinkAccepts (3 * ps.length) →
    ∃ t cs', execAll (ps.map pixelCommand) s = .next t ∧ t.fsm = .done ∧ t.pixelTotal = s.pixelTotal ∧
      Encoding base t (px ++ ps) cs' := by
  induction ps with
  | nil =>
    intro s px cs enc active all accepts
    have below := enc.block.count_lt active
    simp at all
    omega
  | cons p ps ih =>
    intro s px cs enc active all accepts
    have below := enc.block.count_lt active
    have atMost := pixelAppends_length_le s p
    have count : (pixelResult s p).count.toNat = s.count.toNat + 1 := State.toNat_count_succ below
    have e := exec_pixel_of_accepts p enc.new active (accepts.mono (by simp; omega))
    have enc' := enc.pixel active p
    rw [List.length_cons] at all accepts
    simp only [List.map_cons, execAll, e]
    cases last : isLastPixel s with
    | true =>
      have none_left : ps = [] := by
        rw [← List.length_eq_zero_iff]
        have := (isLastPixel_iff below).1 last
        omega
      subst none_left
      exact ⟨_, _, rfl, by simp [pixelResult, last], rfl, enc'⟩
    | false =>
      have ext : Extends s (pixelAppends s p).length (pixelAppends s p).flatten (pixelResult s p) := by
        simp [Extends, pixelResult]
      have total : (pixelResult s p).pixelTotal = s.pixelTotal := rfl
      have accepts' : (pixelResult s p).SinkAccepts (3 * ps.length) :=
        ((ext.sinkAccepts_iff _).1 (accepts.mono (by omega))).2
      simpa [total] using ih enc' (by simp [pixelResult, last]) (by omega) accepts'

/-- Behind an accepted START nothing has been consumed or written (R100, R101). -/
theorem exec_start_encoding {s : State} {w h : BitVec 32} (new : s.waiting = none) (inactive : s.fsm ≠ .active)
    (w0 : w ≠ 0) (h0 : h ≠ 0) (accepts : s.SinkAccepts 1) :
    ∃ t, exec (.start w h) s = .next t ∧ t.fsm = .active ∧ t.count = 0 ∧ t.pixelTotal = w.toNat * h.toNat ∧
      (∀ k, t.answerAt k = s.answerAt (k + 1)) ∧ Encoding (s.out ++ headerBytes w h) t [] [] := by
  have valid := (dimensionsValid_iff w h).2 ⟨w0, h0⟩
  have nf := (s.faultOf_start_eq_none_iff w h).2 ⟨inactive, valid⟩
  have first := State.granted_of_none new
  obtain ⟨t, e, same, ext⟩ := exec_of_accepts nf (by simpa [State.appendsOf_start nf, first] using accepts)
  rw [State.appendsOf_start nf, first] at ext
  have answers := ext.answerAt
  obtain ⟨out, -⟩ := ext
  have block := same.symm.blockInv (fresh_blockInv s valid)
  obtain ⟨cache, prev, run, count, width, height, fsm, -⟩ := same
  refine ⟨t.settle, e, fsm, count, ?_, fun k => ?_, rfl, block, ?_, ?_⟩
  · simp only [State.pixelTotal, State.settle_width, State.settle_height, width, height]; rfl
  · simpa [Nat.add_comm] using answers k
  · simpa [show t.fsm = .active from fsm] using out
  · have view : t.settle.view = Reader.start := by
      simp only [State.view, State.settle_prev, State.settle_cache, cache, prev]; rfl
    rw [view, State.settle_run, run]
    exact .start

/-- Settles O56: START begins an encode, and the PIXEL commands end it; what is written between the header and the
marker is a stream of chunks that a reader takes for the pixels. -/
theorem wholeEncode : Obligations.WholeEncode := by
  unfold Obligations.WholeEncode
  intro s w h pixels new inactive w0 h0 length accepts
  obtain ⟨t, start, active, count, total, answers, enc⟩ :=
    exec_start_encoding new inactive w0 h0 (accepts.mono (by omega))
  have accepts' : t.SinkAccepts (3 * pixels.length) := fun k lt => by
    rw [answers]; exact accepts _ (by omega)
  obtain ⟨u, chunks, e, done, total', new', block, out, written⟩ :=
    enc.pixels pixels active (by simp [count, total, length]) accepts'
  obtain ⟨causeIff, -, complete⟩ := block
  obtain ⟨-, counted, closed⟩ := complete done
  have read : Reader.start.readAll chunks = pixels := by
    have := written.pixels
    simpa [closed] using this
  have cuts : ∀ i ∈ chunks, CutsOff i := fun i mem =>
    chunk_cutsOff (written.chunks i mem).1 (written.chunks i mem).2
  refine ⟨u, chunks.flatMap recordBytes, chunks, ?_, done, causeIff.2 (by simp [done]), new', ?_, ?_, ?_, ?_,
    cutChunks_recordBytes cuts, read⟩
  · simp only [encodeCommands, execAll, start, e]
  · rw [counted, total', total]
  · rw [out, if_pos done]; rfl
  · refine le_trans (List.length_pos_iff.2 fun empty => ?_) (length_le_flatMap_recordBytes cuts)
    have pixel : 0 < w.toNat * h.toNat := by simpa [count, total] using enc.block.count_lt active
    rw [empty] at read
    simp [← length, ← read, Reader.readAll] at pixel
  · rw [← length, ← read]
    exact flatMap_recordBytes_length_le (fun i mem => (written.chunks i mem).1) _

end Sys2Proof.Machine
end

section
/-! Command words by their number (spec/30_encoding.md R70 to R73, R86), and the assembler's words (R74). -/

namespace Sys2Proof.Machine

theorem op_of_number {word : CommandWord} {op : BitVec 2} (h : word.toNat / 2 ^ 64 = op.toNat) :
    CommandWord.op word = op := by
  have lt := op.isLt
  exact field_eq (by omega)

theorem field_eq_ofNat {n : Nat} (x : BitVec n) (start len : Nat) :
    x.extractLsb' start len = BitVec.ofNat len (x.toNat / 2 ^ start % 2 ^ len) :=
  field_eq (by simp)

theorem decodeCommand_of_number_start {word : CommandWord} (op : word.toNat / 2 ^ 64 = 1) :
    decodeCommand word = .start (word.extractLsb' 32 32) (word.extractLsb' 0 32) :=
  decodeCommand_of_op_start (op_of_number op)

theorem decodeCommand_of_number_pixel {word : CommandWord} (op : word.toNat / 2 ^ 64 = 2)
    (zero : word.toNat / 2 ^ 32 % 2 ^ 32 = 0) :
    decodeCommand word = .pixel (word.extractLsb' 24 8) (word.extractLsb' 16 8) (word.extractLsb' 8 8)
      (word.extractLsb' 0 8) :=
  decodeCommand_of_op_pixel (op_of_number op) (field_eq zero)

/-- A word is a START, a PIXEL or reserved (R70 to R73). -/
theorem command_cases (word : CommandWord) :
    word.toNat / 2 ^ 64 = 1 ∨ (word.toNat / 2 ^ 64 = 2 ∧ word.toNat / 2 ^ 32 % 2 ^ 32 = 0) ∨
      CommandWord.isReserved word = true := by
  have lt : word.toNat < 2 ^ 66 := word.isLt
  rw [isReserved_iff]
  omega

/-- Settles O3: the three cases of a word, each with its fields as numbers. -/
theorem commandWordFields : Obligations.CommandWordFields := by
  unfold Obligations.CommandWordFields
  intro word
  refine congrArg Except.ok ?_
  obtain start | ⟨pixel, zero⟩ | reserved := command_cases word
  · rw [if_pos start, decodeCommand_of_number_start start]
    simp [field_eq_ofNat]
  · rw [if_neg (by omega), if_pos ⟨pixel, zero⟩, decodeCommand_of_number_pixel pixel zero]
    simp [field_eq_ofNat]
  · have number := (isReserved_iff word).1 reserved
    rw [if_neg (by omega), if_neg (by omega), decodeCommand_reserved reserved]

theorem toNat_startWord (w h : BitVec 32) :
    (commandWord 0b01 (w ++ h)).toNat = 2 ^ 64 + (w.toNat * 2 ^ 32 + h.toNat) := by
  rw [toNat_commandWord, toNat_concat w h]; rfl

theorem toNat_pixelWord (r g b a : Byte) :
    (commandWord 0b10 (0#32 ++ r ++ g ++ b ++ a)).toNat =
      2 * 2 ^ 64 + (((r.toNat * 2 ^ 8 + g.toNat) * 2 ^ 8 + b.toNat) * 2 ^ 8 + a.toNat) := by
  rw [toNat_commandWord, toNat_concat (0#32 ++ r ++ g ++ b) a, toNat_concat (0#32 ++ r ++ g) b,
    toNat_concat (0#32 ++ r) g, toNat_concat 0#32 r]
  simp

/-- What a word decodes to has the word as its encoding (R86). -/
theorem encode_decodeCommand (word : CommandWord) :
    WellFormed (decodeCommand word) ∧ encode (decodeCommand word) = .command word := by
  obtain start | ⟨pixel, zero⟩ | reserved := command_cases word
  · rw [decodeCommand_of_number_start start]
    refine ⟨rfl, congrArg Code.command (BitVec.eq_of_toNat_eq ?_)⟩
    rw [toNat_startWord, toNat_field, toNat_field]
    omega
  · rw [decodeCommand_of_number_pixel pixel zero]
    refine ⟨rfl, congrArg Code.command (BitVec.eq_of_toNat_eq ?_)⟩
    rw [toNat_pixelWord, toNat_field, toNat_field, toNat_field, toNat_field]
    omega
  · rw [decodeCommand_reserved reserved]
    exact ⟨reserved, rfl⟩

/-! The assembler (R74). -/

theorem assemble_cons {l : AsmLine} {ls : List AsmLine} {ws rest : List CommandWord}
    (line : assembleLine l = some ws) (text : assemble ls = some rest) : assemble (l :: ls) = some (ws ++ rest) := by
  simp [assemble, line, text]

theorem assemble_singleton {l : AsmLine} {ws : List CommandWord} (line : assembleLine l = some ws) :
    assemble [l] = some ws := by
  simp [assemble, line]

/-- The text of `n` equal lines of one word each. -/
theorem assemble_replicate {l : AsmLine} {word : CommandWord} (line : assembleLine l = some [word]) (n : Nat) :
    assemble (List.replicate n l) = some (List.replicate n word) := by
  induction n with
  | zero => rfl
  | succ n ih => exact assemble_cons line ih

/-- Settles O9: a line's words are those its commands decode from. -/
theorem assembledWordsDecode : Obligations.AssembledWordsDecode := by
  unfold Obligations.AssembledWordsDecode
  refine ⟨fun w h => ⟨_, rfl, congrArg _ (decodeCommand_start w h)⟩,
    fun r g b a => ⟨_, rfl, congrArg _ (decodeCommand_pixel r g b a)⟩, fun n r g b a pos => ?_,
    fun l ls ws rest line text => assemble_cons line text⟩
  rw [assemble_replicate (l := .pixel r g b a) rfl n]
  exact assemble_singleton (if_neg (by omega))

end Sys2Proof.Machine
end

section
/-! The opcode map of a chunk's first byte (spec/30_encoding.md R77), and the decoder read backwards: every code it
accepts is the encoding of a well-formed instruction (R73, R86). -/

namespace Sys2Proof.Machine

/-! What encodes decodes and is cut off (R70 to R84). -/

/-- Settles O1: `decode_encode` goes through the rows. -/
theorem decodeOfEncode : Obligations.DecodeOfEncode := by
  unfold Obligations.DecodeOfEncode
  exact fun _ => decode_encode

/-- Settles O8: every chunk is cut off by its first byte's length. -/
theorem cutRecoversChunks : Obligations.CutRecoversChunks := by
  unfold Obligations.CutRecoversChunks
  intro is chunks
  exact cutChunks_recordBytes fun i mem => chunk_cutsOff (chunks i mem).1 (chunks i mem).2

/-! The opcode map (R77). -/

/-- A chunk has the length its first byte gives, and its bytes decode to it. -/
theorem decodeChunk_of_bytes {i : Instr} {b0 : Byte} {rest : List Byte} (chunk : isChunk i = true)
    (wf : WellFormed i) (bytes : recordBytes i = b0 :: rest) :
    chunkLength b0 = rest.length + 1 ∧ decodeChunk b0 rest = .ok i := by
  obtain ⟨c0, tail, bytes', length, decodes⟩ := chunk_cutsOff chunk wf
  obtain ⟨rfl, rfl⟩ := List.cons.inj (bytes'.symm.trans bytes)
  exact ⟨length, decodes⟩

/-- Another length than the first byte's is refused. -/
theorem decodeChunk_wrongLength {b0 : Byte} {rest : List Byte} (ne : rest.length + 1 ≠ chunkLength b0) :
    decodeChunk b0 rest = .error (.wrongLength b0 (rest.length + 1)) := by
  unfold chunkLength at ne
  unfold decodeChunk
  split_ifs at ne ⊢
  all_goals
    split
    · exact absurd rfl ne
    · rfl

/-- The first byte `b0` selects the kind `P`: any `n` bytes behind it make a chunk of that kind. -/
def Selects (b0 : Byte) (n : Nat) (P : Instr → Prop) : Prop :=
  ∀ rest : List Byte, rest.length = n →
    ∃ i, P i ∧ isChunk i = true ∧ WellFormed i ∧ recordBytes i = b0 :: rest

theorem Selects.chunkLength_eq {b0 : Byte} {n : Nat} {P : Instr → Prop} (h : Selects b0 n P) :
    chunkLength b0 = n + 1 := by
  obtain ⟨i, -, chunk, wf, bytes⟩ := h (List.replicate n 0) List.length_replicate
  simpa using (decodeChunk_of_bytes chunk wf bytes).1

/-- What the selected kind says of the decoder: that kind at its length, and a refusal at any other. -/
theorem Selects.decodeChunk_eq {b0 : Byte} {n : Nat} {P : Instr → Prop} (h : Selects b0 n P) (rest : List Byte) :
    if rest.length + 1 = n + 1 then ∃ i, P i ∧ decodeChunk b0 rest = .ok i
    else decodeChunk b0 rest = .error (.wrongLength b0 (rest.length + 1)) := by
  split
  · rename_i length
    obtain ⟨i, kind, chunk, wf, bytes⟩ := h rest (Nat.succ.inj length)
    exact ⟨i, kind, (decodeChunk_of_bytes chunk wf bytes).2⟩
  · rename_i length
    exact decodeChunk_wrongLength (h.chunkLength_eq ▸ length)

theorem selects_index {b0 : Byte} (high : b0.toNat ≤ 0x3F) : Selects b0 0 fun i => ∃ slot, i = .index slot := by
  intro rest empty
  obtain rfl := List.length_eq_zero_iff.1 empty
  refine ⟨_, ⟨b0.extractLsb' 0 6, rfl⟩, rfl, rfl, congrArg (· :: []) (BitVec.eq_of_toNat_eq ?_)⟩
  rw [toNat_concat 0b00#2, toNat_field]
  simp only [BitVec.toNat_ofNat]
  omega

theorem selects_diff {b0 : Byte} (low : 0x40 ≤ b0.toNat) (high : b0.toNat ≤ 0x7F) :
    Selects b0 0 fun i => ∃ dr dg db, i = .diff dr dg db := by
  intro rest empty
  obtain rfl := List.length_eq_zero_iff.1 empty
  refine ⟨_, ⟨b0.extractLsb' 4 2, b0.extractLsb' 2 2, b0.extractLsb' 0 2, rfl⟩, rfl, rfl,
    congrArg (· :: []) (BitVec.eq_of_toNat_eq ?_)⟩
  rw [toNat_concat (0b01#2 ++ b0.extractLsb' 4 2 ++ b0.extractLsb' 2 2),
    toNat_concat (0b01#2 ++ b0.extractLsb' 4 2), toNat_concat 0b01#2]
  simp only [toNat_field, BitVec.toNat_ofNat]
  omega

theorem selects_luma {b0 : Byte} (low : 0x80 ≤ b0.toNat) (high : b0.toNat ≤ 0xBF) :
    Selects b0 1 fun i => ∃ dg drdg dbdg, i = .luma dg drdg dbdg := by
  intro rest one
  obtain ⟨b1, rfl⟩ := List.length_eq_one_iff.1 one
  have lt : b1.toNat < 2 ^ 8 := b1.isLt
  have first : 0b10#2 ++ b0.extractLsb' 0 6 = b0 := BitVec.eq_of_toNat_eq (by
    rw [toNat_concat 0b10#2, toNat_field]
    simp only [BitVec.toNat_ofNat]
    omega)
  have second : b1.extractLsb' 4 4 ++ b1.extractLsb' 0 4 = b1 := BitVec.eq_of_toNat_eq (by
    rw [toNat_concat (b1.extractLsb' 4 4), toNat_field, toNat_field]
    omega)
  exact ⟨_, ⟨b0.extractLsb' 0 6, b1.extractLsb' 4 4, b1.extractLsb' 0 4, rfl⟩, rfl, rfl,
    congrArg₂ (fun x y => [x, y]) first second⟩

theorem selects_run {b0 : Byte} (low : 0xC0 ≤ b0.toNat) (high : b0.toNat ≤ 0xFD) :
    Selects b0 0 fun i => ∃ n, i = .run n := by
  intro rest empty
  obtain rfl := List.length_eq_zero_iff.1 empty
  have below : (b0.extractLsb' 0 6).toNat < 62 := by rw [toNat_field]; omega
  refine ⟨_, ⟨b0.extractLsb' 0 6, rfl⟩, rfl, decide_eq_true below, congrArg (· :: []) (BitVec.eq_of_toNat_eq ?_)⟩
  rw [toNat_concat 0b11#2, toNat_field]
  simp only [BitVec.toNat_ofNat]
  omega

theorem selects_rgb : Selects 0xFE 3 fun i => ∃ r g b, i = .rgb r g b := by
  intro rest three
  obtain ⟨r, g, b, rfl⟩ := List.length_eq_three.1 three
  exact ⟨_, ⟨r, g, b, rfl⟩, rfl, rfl, rfl⟩

theorem selects_rgba : Selects 0xFF 4 fun i => ∃ r g b a, i = .rgba r g b a := by
  intro rest four
  match rest, four with
  | [r, g, b, a], _ => exact ⟨_, ⟨r, g, b, a, rfl⟩, rfl, rfl, rfl⟩

/-- Settles O4: kind by kind, what the range of first bytes selects. -/
theorem firstByteSelectsKind : Obligations.FirstByteSelectsKind := by
  unfold Obligations.FirstByteSelectsKind
  intro b0 rest
  refine ⟨fun high => ?_, fun low high => ?_, fun low high => ?_, fun low high => ?_, fun tag => ?_, fun tag => ?_⟩
  · simpa using (selects_index high).decodeChunk_eq rest
  · simpa using (selects_diff low high).decodeChunk_eq rest
  · simpa using (selects_luma low high).decodeChunk_eq rest
  · simpa using (selects_run low high).decodeChunk_eq rest
  · obtain rfl : b0 = 0xFE := BitVec.eq_of_toNat_eq tag
    simpa using selects_rgb.decodeChunk_eq rest
  · obtain rfl : b0 = 0xFF := BitVec.eq_of_toNat_eq tag
    simpa using selects_rgba.decodeChunk_eq rest

/-- Every byte selects a kind (R77). -/
theorem exists_selects (b0 : Byte) : ∃ n P, Selects b0 n P := by
  have lt : b0.toNat < 2 ^ 8 := b0.isLt
  by_cases index : b0.toNat ≤ 0x3F
  · exact ⟨_, _, selects_index index⟩
  by_cases diff : b0.toNat ≤ 0x7F
  · exact ⟨_, _, selects_diff (by omega) diff⟩
  by_cases luma : b0.toNat ≤ 0xBF
  · exact ⟨_, _, selects_luma (by omega) luma⟩
  by_cases run : b0.toNat ≤ 0xFD
  · exact ⟨_, _, selects_run (by omega) run⟩
  by_cases rgb : b0.toNat = 0xFE
  · obtain rfl : b0 = 0xFE := BitVec.eq_of_toNat_eq rgb
    exact ⟨_, _, selects_rgb⟩
  · obtain rfl : b0 = 0xFF := BitVec.eq_of_toNat_eq (show b0.toNat = 0xFF by omega)
    exact ⟨_, _, selects_rgba⟩

/-! What decodes is well-formed and encodes back (R73, R77, R86). -/

theorem encode_of_chunk {i : Instr} (chunk : isChunk i = true) : encode i = .record (recordBytes i) := by
  cases i with
  | start | pixel | reserved | header | endMarker => cases chunk
  | _ => rfl

/-- The bytes that decode to a chunk are the encoding of that chunk. -/
theorem encode_of_decodeChunk {b0 : Byte} {rest : List Byte} {i : Instr} (h : decodeChunk b0 rest = .ok i) :
    WellFormed i ∧ encode i = .record (b0 :: rest) := by
  have length : rest.length + 1 = chunkLength b0 := by
    by_contra ne
    rw [decodeChunk_wrongLength ne] at h
    cases h
  obtain ⟨n, P, selects⟩ := exists_selects b0
  rw [selects.chunkLength_eq] at length
  obtain ⟨j, -, chunk, wf, bytes⟩ := selects rest (Nat.succ.inj length)
  obtain rfl : j = i := Except.ok.inj ((decodeChunk_of_bytes chunk wf bytes).2.symm.trans h)
  exact ⟨wf, (encode_of_chunk chunk).trans (congrArg Code.record bytes)⟩

theorem be32_concat (b3 b2 b1 b0 : Byte) : be32 (b3 ++ b2 ++ b1 ++ b0) = [b3, b2, b1, b0] := by
  have number : (b3 ++ b2 ++ b1 ++ b0).toNat =
      ((b3.toNat * 2 ^ 8 + b2.toNat) * 2 ^ 8 + b1.toNat) * 2 ^ 8 + b0.toNat := by
    rw [toNat_concat (b3 ++ b2 ++ b1) b0, toNat_concat (b3 ++ b2) b1, toNat_concat b3 b2]
  have := b3.isLt
  have := b2.isLt
  have := b1.isLt
  have := b0.isLt
  rw [be32, field_eq (x := b3) (by omega), field_eq (x := b2) (by omega), field_eq (x := b1) (by omega),
    field_eq (x := b0) (by omega)]

/-- The fourteen bytes that decode as a header are the header of its two sizes (R75). -/
theorem encode_of_decodeHeader {bs : List Byte} {i : Instr} (h : decodeHeader bs = .ok i) :
    WellFormed i ∧ encode i = .record bs := by
  unfold decodeHeader at h
  split at h
  · split at h
    · rename_i fixed
      cases h
      simp only [List.cons.injEq, and_true] at fixed
      obtain ⟨rfl, rfl, rfl, rfl, rfl, rfl⟩ := fixed
      exact ⟨rfl, congrArg Code.record (by simp only [headerBytes, be32_concat, List.cons_append, List.nil_append])⟩
    · cases h
  · cases h

theorem encode_of_decodeRecord {bs : List Byte} {i : Instr} (h : decodeRecord bs = .ok i) :
    WellFormed i ∧ encode i = .record bs := by
  unfold decodeRecord at h
  split at h
  · exact encode_of_decodeHeader h
  split at h
  · split at h
    · rename_i marker
      cases h
      exact ⟨rfl, congrArg Code.record marker.symm⟩
    · cases h
  split at h
  · cases h
  · exact encode_of_decodeChunk h

/-- Settles O2: a command word is read by its number, a record by its length and its first byte. -/
theorem encodeOfDecoded : Obligations.EncodeOfDecoded := by
  unfold Obligations.EncodeOfDecoded
  intro c i h
  cases c with
  | command word =>
    obtain rfl := Except.ok.inj h
    exact encode_decodeCommand word
  | record bs => exact encode_of_decodeRecord h

end Sys2Proof.Machine
end

section
/-! The bytes of each record as numbers (spec/30_encoding.md R75 to R83): the header's by quotients, a chunk's by the
formula of its rule. -/

namespace Sys2Proof.Machine

/-- A byte of a 32-bit value is a quotient of its number (R54). -/
theorem byte_eq_ofNat_div (v : BitVec 32) (start : Nat) :
    v.extractLsb' start 8 = BitVec.ofNat 8 (v.toNat / 2 ^ start) := by
  apply BitVec.eq_of_toNat_eq
  rw [toNat_field, BitVec.toNat_ofNat]

/-- Settles O5: `be32` gives the quotients by 2^24, 2^16, 2^8 and 1. -/
theorem fixedRecordBytes : Obligations.FixedRecordBytes := by
  unfold Obligations.FixedRecordBytes
  refine ⟨fun w h => congrArg Code.record ?_, rfl⟩
  simp only [headerBytes, be32, byte_eq_ofNat_div, pow_zero, Nat.div_one]
  rfl

/-! The chunks (R78 to R83). -/

theorem ofNat_or_concat {n m : Nat} (x : BitVec n) (y : BitVec m) :
    BitVec.ofNat (n + m) (x.toNat <<< m ||| y.toNat) = x ++ y := by
  rw [← BitVec.toNat_append, BitVec.ofNat_toNat, BitVec.setWidth_eq]

theorem indexBytes_eq (i : Slot) : indexBytes i = [BitVec.ofNat 8 i.toNat] :=
  congrArg (· :: []) (by simpa using (ofNat_or_concat 0b00#2 i).symm)

theorem diffBytes_eq (dr dg db : BitVec 2) :
    diffBytes dr dg db = [BitVec.ofNat 8 (0x40 ||| dr.toNat <<< 4 ||| dg.toNat <<< 2 ||| db.toNat)] := by
  refine congrArg (· :: []) ((ofNat_or_concat (0b01#2 ++ dr ++ dg) db).symm.trans (congrArg _ ?_))
  rw [BitVec.toNat_append (0b01#2 ++ dr) dg, BitVec.toNat_append 0b01#2 dr]
  simp [Nat.shiftLeft_or_distrib, ← Nat.shiftLeft_add]

theorem lumaBytes_eq (dg : BitVec 6) (drdg dbdg : BitVec 4) :
    lumaBytes dg drdg dbdg =
      [BitVec.ofNat 8 (0x80 ||| dg.toNat), BitVec.ofNat 8 (drdg.toNat <<< 4 ||| dbdg.toNat)] :=
  congrArg₂ (fun x y => [x, y]) (ofNat_or_concat 0b10#2 dg).symm (ofNat_or_concat drdg dbdg).symm

theorem runBytes_eq (lessOne : BitVec 6) : runBytes lessOne = [BitVec.ofNat 8 (0xC0 ||| lessOne.toNat)] :=
  congrArg (· :: []) (ofNat_or_concat 0b11#2 lessOne).symm

/-- The field of a run of `n` pixels (R81). -/
theorem toNat_runField {n : Nat} (le : n ≤ 62) : (BitVec.ofNat 6 (n - 1)).toNat = n - 1 := by
  rw [BitVec.toNat_ofNat]
  omega

/-- Settles O6: each kind by its formula, and the RUN of 1 to 62 pixels below the tags FE and FF. -/
theorem chunkByteFormulas : Obligations.ChunkByteFormulas := by
  unfold Obligations.ChunkByteFormulas
  refine ⟨fun i => congrArg _ (indexBytes_eq i), fun dr dg db => congrArg _ (diffBytes_eq dr dg db),
    fun dg drdg dbdg => congrArg _ (lumaBytes_eq dg drdg dbdg), fun n pos le => ?_, fun f => ?_,
    fun r g b => rfl, fun r g b a => rfl⟩
  · have field := toNat_runField le
    have sum : 0xC0 + (n - 1) = 0xC0 ||| (n - 1) := Nat.two_pow_add_eq_or_of_lt (i := 6) (by omega) 3
    refine ⟨decide_eq_true (by omega), congrArg Code.record ?_, by omega⟩
    rw [runBytes_eq, field]
  · exact decide_eq_true_iff

/-- Settles O7: the decoder computes. -/
theorem sampleCodesDecode : Obligations.SampleCodesDecode := by
  unfold Obligations.SampleCodesDecode
  exact ⟨rfl, rfl, rfl, rfl, rfl, rfl, rfl, rfl, rfl⟩

end Sys2Proof.Machine
end

section
/-! The fields of DIFF and LUMA and the pixels they name (spec/30_encoding.md R79, R80, R85), and what the chunk of a
pixel stands for (R82 to R85, R114). -/

namespace Sys2Proof.Machine

/-! The pixel recovered from any fields has those fields. -/

theorem diffFields_recoverDiff (q : Pixel) (dr dg db : BitVec 2) :
    diffFields (recoverDiff q dr dg db) q =
      { dr := dr.setWidth 8, dg := dg.setWidth 8, db := db.setWidth 8 } := by
  have channel : ∀ (x : Byte) (f : BitVec 2), biasedDelta (recoverDiffChannel x f) x 2 = f.setWidth 8 :=
    fun x f => by simp only [biasedDelta, recoverDiffChannel]; bv_omega
  simp only [diffFields, recoverDiff, channel]

theorem diffFits_recoverDiff (q : Pixel) (dr dg db : BitVec 2) : diffFits (recoverDiff q dr dg db) q = true := by
  have small : ∀ f : BitVec 2, (f.setWidth 8).toNat ≤ 3 := fun f => by bv_omega
  rw [diffFits, diffFields_recoverDiff]
  exact decide_eq_true ⟨small dr, small dg, small db⟩

theorem lumaFields_recoverLuma (q : Pixel) (dg : BitVec 6) (drdg dbdg : BitVec 4) :
    lumaFields (recoverLuma q dg drdg dbdg) q =
      { lg := dg.setWidth 8, lrg := drdg.setWidth 8, lbg := dbdg.setWidth 8 } := by
  have green : ∀ x f : Byte, biasedDelta (x + (f - 32)) x 32 = f := fun x f => by
    simp only [biasedDelta]; bv_omega
  have other : ∀ x y vg f : Byte, biasedDelta (x + (vg + f - 8) - x) (y + vg - y) 8 = f := fun x y vg f => by
    simp only [biasedDelta]; bv_omega
  simp only [lumaFields, recoverLuma, green, other]

theorem lumaFits_recoverLuma (q : Pixel) (dg : BitVec 6) (drdg dbdg : BitVec 4) :
    lumaFits (recoverLuma q dg drdg dbdg) q = true := by
  have green : (dg.setWidth 8).toNat ≤ 63 := by bv_omega
  have other : ∀ f : BitVec 4, (f.setWidth 8).toNat ≤ 15 := fun f => by bv_omega
  rw [lumaFits, lumaFields_recoverLuma]
  exact decide_eq_true ⟨green, other drdg, other dbdg⟩

/-- Settles O12: fields that fit name their pixel, and the named pixel has the fields. -/
theorem recoveryInvertsFields : Obligations.RecoveryInvertsFields := by
  unfold Obligations.RecoveryInvertsFields
  exact ⟨fun _ _ => recoverDiff_diffFields, fun _ _ => recoverLuma_lumaFields,
    fun q dr dg db => ⟨diffFits_recoverDiff q dr dg db, diffFields_recoverDiff q dr dg db⟩,
    fun q dg drdg dbdg => ⟨lumaFits_recoverLuma q dg drdg dbdg, lumaFields_recoverLuma q dg drdg dbdg⟩⟩

/-- Settles O13: an INDEX is chosen only where the slot holds the pixel. -/
theorem chunkNamesItsPixel : Obligations.ChunkNamesItsPixel := by
  unfold Obligations.ChunkNamesItsPixel
  exact fun d p => d.pixels_chunkFor p of_decide_eq_true

end Sys2Proof.Machine
end

section
/-! What a PIXEL step never emits (spec/30_encoding.md R87): the first byte of a pixel's chunk tells its kind (R77),
and the kind tells why it was chosen (R114). -/

namespace Sys2Proof.Machine

/-- A chunk is of the kind that its first byte selects. -/
theorem Selects.kind {b0 : Byte} {n : Nat} {P : Instr → Prop} (h : Selects b0 n P) {i : Instr} {rest : List Byte}
    (chunk : isChunk i = true) (wf : WellFormed i) (bytes : recordBytes i = b0 :: rest) : P i := by
  obtain ⟨length, decodes⟩ := decodeChunk_of_bytes chunk wf bytes
  obtain ⟨j, kind, chunk', wf', bytes'⟩ := h rest (Nat.succ.inj (length.symm.trans h.chunkLength_eq))
  obtain rfl : j = i := Except.ok.inj ((decodeChunk_of_bytes chunk' wf' bytes').2.symm.trans decodes)
  exact kind

theorem index_firstByte {i : Slot} {b0 : Byte} {rest : List Byte} (bytes : recordBytes (.index i) = b0 :: rest) :
    b0.toNat ≤ 0x3F := by
  obtain ⟨rfl, -⟩ := List.cons.inj bytes
  have := i.isLt
  rw [toNat_concat 0b00#2]
  simp only [BitVec.toNat_ofNat]
  omega

/-- Why a chunk of this kind is chosen for `p` behind `q` (R114, R132 to R135). -/
def ChunkReason (p q : Pixel) : Instr → Prop
  | .rgba _ _ _ _ => p.a ≠ q.a
  | .diff dr dg db => recoverDiff q dr dg db = p
  | .luma _ _ _ => diffFits p q = false
  | .rgb _ _ _ => diffFits p q = false ∧ lumaFits p q = false
  | _ => True

theorem chunkFor_reason (p q : Pixel) (hit : Bool) : ChunkReason p q (chunkFor p q hit) := by
  unfold chunkFor
  split
  · trivial
  split
  · assumption
  rename_i alpha
  split
  · rename_i fits
    exact recoverDiff_diffFields (not_not.1 alpha) fits
  rename_i noDiff
  split
  · exact Bool.eq_false_of_not_eq_true noDiff
  · rename_i noLuma
    exact ⟨Bool.eq_false_of_not_eq_true noDiff, Bool.eq_false_of_not_eq_true noLuma⟩

/-- Three deltas of 0 name `prev` itself (R79, R85). -/
theorem recoverDiff_zero_deltas (q : Pixel) : recoverDiff q 2 2 2 = q := by
  have channel : ∀ x : Byte, recoverDiffChannel x 2 = x := fun x => by
    simp only [recoverDiffChannel]; bv_omega
  simp only [recoverDiff, channel]

/-- 6A is the DIFF with three deltas of 0. -/
theorem diff_of_6A {i : Instr} {rest : List Byte} (chunk : isChunk i = true) (wf : WellFormed i)
    (bytes : recordBytes i = 0x6A :: rest) : i = .diff 2 2 2 := by
  obtain ⟨length, decodes⟩ := decodeChunk_of_bytes chunk wf bytes
  obtain rfl := List.length_eq_zero_iff.1 (Nat.succ.inj length.symm)
  exact (Except.ok.inj decodes).symm

/-- The appends of a PIXEL step that stays in ACTIVE and does not continue a run (R116, R118). -/
theorem pixel_emits_flush_chunk {p : Pixel} {s t : State} (new : s.waiting = none) (active : s.fsm = .active)
    (e : exec (.pixel p.r p.g p.b p.a) s = .next t) (complete : t.waiting = none) (stays : t.fsm = .active)
    (ne : p ≠ s.prev) :
    t.out = s.out ++ (flushAppends s.run).flatten ++ recordBytes (chunkFor p s.prev (s.cacheHit p)) := by
  obtain ⟨⟨-, -, -, -, -, -, fsm, -⟩, out⟩ := pixel_completed new active e complete (by simp [stays])
  have notLast : isLastPixel s = false := by
    by_contra last
    simp [stays, pixelResult, last] at fsm
  simpa [ownAppends, ne, lastAppends, notLast] using out

/-- Settles O26: clause by clause, the kind the byte selects against the reason of that kind. -/
theorem neverEmittedChunks : Obligations.NeverEmittedChunks := by
  unfold Obligations.NeverEmittedChunks
  intro p s t new active e complete stays ne
  have out := pixel_emits_flush_chunk new active e complete stays ne
  have reason := chunkFor_reason p s.prev (s.cacheHit p)
  obtain ⟨chunk, wf, nonRun⟩ := chunkFor_nonRun p s.prev (s.cacheHit p)
  obtain ⟨b0, rest, bytes, -, -⟩ := chunk_cutsOff chunk wf
  rw [bytes] at out
  refine ⟨b0, rest, out, ?_, fun hit => ?_, ?_, fun ⟨low, high⟩ => ?_, ?_, fun ⟨low, high⟩ => ?_⟩
  · rintro rfl
    rw [diff_of_6A chunk wf bytes] at reason
    exact ne (reason.symm.trans (recoverDiff_zero_deltas s.prev))
  · rw [chunkFor, if_pos hit] at bytes
    exact index_firstByte bytes
  · rintro rfl
    obtain ⟨r, g, b, a, rgba⟩ := selects_rgba.kind chunk wf bytes
    rwa [rgba] at reason
  · obtain ⟨dg, drdg, dbdg, luma⟩ := (selects_luma low high).kind chunk wf bytes
    rwa [luma] at reason
  · rintro rfl
    obtain ⟨r, g, b, rgb⟩ := selects_rgb.kind chunk wf bytes
    rwa [rgb] at reason
  · obtain ⟨n, run⟩ := (selects_run low high).kind chunk wf bytes
    exact nonRun n run

end Sys2Proof.Machine
end

section
/-! The packer's procedures as instructions (spec/42_chunks.md R130 to R135, spec/40_header.md R101; log 8, 9): each
makes one append and writes what `State.resultOf` says. -/

namespace Sys2Proof.Machine

/-- No record's procedure writes anything outside the block but its append. -/
theorem State.resultOf_sameOutside (s : State) {i : Instr} (record : isCommand i = false) :
    SameOutside (s.resultOf i) s := by
  cases i with
  | start | pixel | reserved => cases record
  | _ => exact ⟨rfl, rfl, rfl, rfl, rfl, rfl, rfl⟩

theorem State.faultOf_of_record (s : State) {i : Instr} (record : isCommand i = false) : s.faultOf i = none := by
  cases i with
  | start | pixel | reserved => cases record
  | _ => rfl

/-- A record of one append, which the sink accepts: its bytes are in OUT, one turn has passed, and the block is as
`State.resultOf` says. -/
theorem exec_record_of_accepts {i : Instr} {s : State} {bs : List Byte} (record : isCommand i = false)
    (appends : s.appendsOf i = [bs]) (new : s.waiting = none) (accepts : s.SinkAccepts 1) :
    exec i s = .next { s.resultOf i with
      out := s.out ++ bs
      script := s.script.tail
      turns := s.turns + 1 } := by
  have first := State.granted_of_none new
  obtain ⟨t, e, same, out, script, turns, -, -, input, statusReads, draws⟩ :=
    exec_of_accepts (s.faultOf_of_record record) (by simpa [appends, first] using accepts)
  obtain ⟨-, input', waiting', -, -, draws', statusReads'⟩ := s.resultOf_sameOutside record
  rw [e]
  congr 1
  refine State.eq_of_same same ⟨?_, ?_, (waiting'.trans new).symm, ?_, ?_, ?_, ?_⟩
  all_goals simp [*]

/-- Settles O29: INDEX writes no state. -/
theorem indexAppendsSlot : Obligations.IndexAppendsSlot := by
  unfold Obligations.IndexAppendsSlot
  intro i s
  exact exec_record_of_accepts rfl (congrArg (· :: []) (indexBytes_eq i))

/-- Settles O30: the field is the length less one, and EmitRun sets run to 0. -/
theorem runAppendsLength : Obligations.RunAppendsLength := by
  unfold Obligations.RunAppendsLength
  intro n s _ le
  refine exec_record_of_accepts rfl (congrArg (· :: []) ((runBytes_eq _).trans ?_))
  rw [toNat_runField le]

/-- Settles O31: the operands are the pixel. -/
theorem rgbaAppendsChannels : Obligations.RgbaAppendsChannels := by
  unfold Obligations.RgbaAppendsChannels
  intro p s
  exact exec_record_of_accepts rfl rfl

/-- Settles O32: the recovered pixel is the one with prev's alpha. -/
theorem rgbAppendsChannels : Obligations.RgbAppendsChannels := by
  unfold Obligations.RgbAppendsChannels
  intro p s alpha
  have named : recoverRgb s.prev p.r p.g p.b = p := by rw [recoverRgb, ← alpha]
  have appends : s.appendsOf (.rgb p.r p.g p.b) = [rgbBytes p.r p.g p.b] := rfl
  simpa [State.resultOf, named, rgbBytes] using exec_record_of_accepts rfl appends

/-- Settles O33: the recovered pixel is the one its channels are given of. -/
theorem diffAppendsFields : Obligations.DiffAppendsFields := by
  unfold Obligations.DiffAppendsFields
  intro dr dg db p s red green blue alpha
  obtain rfl : p = recoverDiff s.prev dr dg db := by
    cases p
    simp only [recoverDiff, recoverDiffChannel, Pixel.mk.injEq]
    exact ⟨red, green, blue, alpha⟩
  exact exec_record_of_accepts rfl (congrArg (· :: []) (diffBytes_eq dr dg db))

/-- Settles O34: the recovered pixel is the one its channels are given of. -/
theorem lumaAppendsFields : Obligations.LumaAppendsFields := by
  unfold Obligations.LumaAppendsFields
  intro dg drdg dbdg p s green red blue alpha
  obtain rfl : p = recoverLuma s.prev dg drdg dbdg := by
    cases p
    simp only [recoverLuma, Pixel.mk.injEq]
    exact ⟨red, green, blue, alpha⟩
  exact exec_record_of_accepts rfl (congrArg (· :: []) (lumaBytes_eq dg drdg dbdg))

/-- Settles O35: HEADER writes no state. -/
theorem headerAppendsRecord : Obligations.HeaderAppendsRecord := by
  unfold Obligations.HeaderAppendsRecord
  intro w h s
  exact exec_record_of_accepts rfl rfl

end Sys2Proof.Machine
end

section
/-! The classifier's pure functions as numbers (spec/41_classifier.md R110, R112; R9): the hash as a sum reduced once,
the delta fields as moduli of integer differences. -/

namespace Sys2Proof.Machine

/-- The sum of the hash, before it is reduced (R110). -/
def hashSum (p : Pixel) : Nat := p.r.toNat * 3 + p.g.toNat * 5 + p.b.toNat * 7 + p.a.toNat * 11

theorem toNat_pixelHash (p : Pixel) : (pixelHash p).toNat = hashSum p % 64 := BitVec.toNat_ofNat _ _

/-- 6630 is 255 times the weights' sum. -/
theorem hashSum_le (p : Pixel) : hashSum p ≤ 6630 := by
  have red := p.r.isLt
  have green := p.g.isLt
  have blue := p.b.isLt
  have alpha := p.a.isLt
  unfold hashSum
  omega

/-- The reduction may be made per product and per partial sum (R110). -/
theorem hashSum_mod (p : Pixel) :
    hashSum p % 64 = ((p.r.toNat * 3 % 64 + p.g.toNat * 5 % 64) % 64 +
      (p.b.toNat * 7 % 64 + p.a.toNat * 11 % 64) % 64) % 64 := by
  unfold hashSum
  omega

/-- Settles O10: the slot is the sum's remainder; the table's values compute. -/
theorem hashFormula : Obligations.HashFormula := by
  unfold Obligations.HashFormula
  exact ⟨fun p => ⟨toNat_pixelHash p, hashSum_le p, (toNat_pixelHash p).trans (hashSum_mod p)⟩,
    rfl, rfl, rfl, rfl, rfl, rfl⟩

/-- A biased difference that wraps in 8 bits is the mathematical modulus (R9). -/
theorem toNat_biasedDelta (x y bias : Byte) :
    ((biasedDelta x y bias).toNat : Int) = ((x.toNat : Int) - y.toNat + bias.toNat) % 256 := by
  have wrapped : (biasedDelta x y bias).toNat = (256 - y.toNat + x.toNat + bias.toNat) % 256 := by
    simp [biasedDelta, BitVec.toNat_add, BitVec.toNat_sub]
  have := y.isLt
  omega

/-- A difference of two differences wraps once more, to the same modulus (R9, R112). -/
theorem toNat_biasedDelta_sub (x y u v bias : Byte) :
    ((biasedDelta (x - y) (u - v) bias).toNat : Int) =
      (((x.toNat : Int) - y.toNat) - ((u.toNat : Int) - v.toNat) + bias.toNat) % 256 := by
  have wrapped : ∀ a b : Byte, ((a - b).toNat : Int) = ((a.toNat : Int) - b.toNat) % 256 := fun a b => by
    simpa [biasedDelta] using toNat_biasedDelta a b 0
  rw [toNat_biasedDelta, wrapped, wrapped]
  omega

/-- Settles O11: each field is a biased difference, and each test decides its bounds. -/
theorem deltaFieldsAreModular : Obligations.DeltaFieldsAreModular := by
  unfold Obligations.DeltaFieldsAreModular
  intro p q
  exact ⟨toNat_biasedDelta _ _ _, toNat_biasedDelta _ _ _, toNat_biasedDelta _ _ _, toNat_biasedDelta _ _ _,
    toNat_biasedDelta_sub _ _ _ _ _, toNat_biasedDelta_sub _ _ _ _ _, decide_eq_true_iff, decide_eq_true_iff⟩

end Sys2Proof.Machine
end

section
/-! The PIXEL step of an accepting sink (spec/41_classifier.md R113 to R118): `pixelResult`, and its bytes where a run
is open and where none is. -/

namespace Sys2Proof.Machine

/-- Settles O19: the step reaches the block of `pixelResult` and makes the appends of `pixelAppends`. -/
theorem pixelStepResult : Obligations.PixelStepResult := by
  unfold Obligations.PixelStepResult
  exact fun p _ => exec_pixel_of_accepts p

/-- A pixel that differs from prev leaves no run, whether the finalizer runs or not (R116, R140). -/
theorem pixelResult_run_of_ne {s : State} {p : Pixel} (ne : p ≠ s.prev) : (pixelResult s p).run = 0 := by
  simp [pixelResult, runAfter, ne]

/-- The bytes of a pixel that differs from prev: the flush, its chunk, and on the last pixel the marker (R116, R118,
R140). -/
theorem pixelResult_out_of_ne {s : State} {p : Pixel} (ne : p ≠ s.prev) :
    (pixelResult s p).out = s.out ++ (flushAppends s.run).flatten ++
      recordBytes (chunkFor p s.prev (s.cacheHit p)) ++
      if (s.count + 1).toNat = s.width.toNat * s.height.toNat then [0, 0, 0, 0, 0, 0, 0, 1] else [] := by
  have run : runAfter s p = 0 := if_neg ne
  have last : lastAppends s p =
      if (s.count + 1).toNat = s.width.toNat * s.height.toNat then [[0, 0, 0, 0, 0, 0, 0, 1]] else [] := by
    simp [lastAppends, isLastPixel, State.pixelTotal, run, finalizerAppends, flushAppends]
  simp only [pixelResult, pixelAppends, ownAppends, if_neg ne, last]
  split <;> simp

/-- The flush of an open run is its RUN byte (R81, R116). -/
theorem flushAppends_of_pos {n : BitVec 6} (pos : 0 < n.toNat) :
    flushAppends n = [[BitVec.ofNat 8 (0xC0 ||| (n.toNat - 1))]] := by
  have opened : n ≠ 0 := by rintro rfl; simp at pos
  have field : (n - 1).toNat = n.toNat - 1 := by bv_omega
  rw [flushAppends_open n opened, runBytes_eq, field]

/-- Settles O21: the flush of an open run is one byte, in front of the pixel's chunk. -/
theorem runFlushComesFirst : Obligations.RunFlushComesFirst := by
  unfold Obligations.RunFlushComesFirst
  intro p s new active ne pos accepts
  refine ⟨pixelResult s p, exec_pixel_of_accepts p new active accepts, pixelResult_run_of_ne ne, ?_⟩
  rw [pixelResult_out_of_ne ne, flushAppends_of_pos pos, List.flatten_singleton]

/-! The chunk of a pixel that differs from prev, with no run open (R113, R114). -/

/-- A field that fits keeps its value when it is cut to its width (R79, R80). -/
theorem toNat_setWidth_of_fits {n : Nat} {f : Byte} (le : f.toNat ≤ 2 ^ n - 1) : (f.setWidth n).toNat = f.toNat := by
  have := Nat.two_pow_pos n
  rw [BitVec.toNat_setWidth, Nat.mod_eq_of_lt (by omega)]

/-- Fields that fit DIFF are packed whole (R79, R133). -/
theorem diffBytesOf_of_fits {p q : Pixel} (fits : diffFits p q = true) :
    diffBytesOf p q = [BitVec.ofNat 8 (0x40 ||| (diffFields p q).dr.toNat <<< 4 |||
      (diffFields p q).dg.toNat <<< 2 ||| (diffFields p q).db.toNat)] := by
  obtain ⟨red, green, blue⟩ := of_decide_eq_true fits
  rw [diffBytesOf, diffBytes_eq, toNat_setWidth_of_fits red, toNat_setWidth_of_fits green, toNat_setWidth_of_fits blue]

/-- Fields that fit LUMA are packed whole (R80, R134). -/
theorem lumaBytesOf_of_fits {p q : Pixel} (fits : lumaFits p q = true) :
    lumaBytesOf p q = [BitVec.ofNat 8 (0x80 ||| (lumaFields p q).lg.toNat),
      BitVec.ofNat 8 ((lumaFields p q).lrg.toNat <<< 4 ||| (lumaFields p q).lbg.toNat)] := by
  obtain ⟨green, red, blue⟩ := of_decide_eq_true fits
  rw [lumaBytesOf, lumaBytes_eq, toNat_setWidth_of_fits green, toNat_setWidth_of_fits red, toNat_setWidth_of_fits blue]

theorem chunkFor_hit_bytes (p q : Pixel) : recordBytes (chunkFor p q true) = [BitVec.ofNat 8 (pixelHash p).toNat] :=
  indexBytes_eq (pixelHash p)

/-- The priority of the four kinds that write their slot (R114, R132 to R135). -/
theorem chunkFor_miss_bytes (p q : Pixel) :
    recordBytes (chunkFor p q false) =
      if p.a ≠ q.a then [0xFF, p.r, p.g, p.b, p.a]
      else if diffFits p q then [BitVec.ofNat 8 (0x40 ||| (diffFields p q).dr.toNat <<< 4 |||
        (diffFields p q).dg.toNat <<< 2 ||| (diffFields p q).db.toNat)]
      else if lumaFits p q then [BitVec.ofNat 8 (0x80 ||| (lumaFields p q).lg.toNat),
        BitVec.ofNat 8 ((lumaFields p q).lrg.toNat <<< 4 ||| (lumaFields p q).lbg.toNat)]
      else [0xFE, p.r, p.g, p.b] := by
  simp only [chunkFor, Bool.false_eq_true, if_false]
  split
  · rfl
  split
  · rename_i fits; exact diffBytesOf_of_fits fits
  split
  · rename_i fits; exact lumaBytesOf_of_fits fits
  · rfl

/-- Settles O22: the step makes one append, the chunk of `chunkFor`, and writes the slot unless it was hit. -/
theorem chunkPriority : Obligations.ChunkPriority := by
  unfold Obligations.ChunkPriority
  intro p s new active ne closed below accepts
  have notLast : isLastPixel s = false := decide_eq_false below
  have appends : pixelAppends s p = [recordBytes (chunkFor p s.prev (s.cacheHit p))] := by
    simp [pixelAppends, ownAppends, lastAppends, ne, closed, notLast, flushAppends]
  have out : (pixelResult s p).out = s.out ++ recordBytes (chunkFor p s.prev (s.cacheHit p)) := by
    simp [pixelResult, appends]
  refine ⟨pixelResult s p, exec_pixel_of_accepts p new active (by rwa [appends]),
    by simp [pixelResult, notLast], ?_⟩
  split
  · rename_i hit
    rw [← s.cacheHit_iff] at hit
    exact ⟨by rw [out, hit, chunkFor_hit_bytes], by simp [pixelResult, ne, hit]⟩
  · rename_i miss
    rw [← s.cacheHit_iff, Bool.not_eq_true] at miss
    refine ⟨by simp [pixelResult, miss], ?_⟩
    rw [out, miss, chunkFor_miss_bytes]
    split
    · rfl
    split
    · rfl
    split <;> rfl

/-! A PIXEL step new or resumed, whatever the sink has answered (R115, R117, R120). -/

/-- A PIXEL step that completes and raises no fault reaches the block of `pixelResult`, also where it waited before. -/
theorem pixel_completed_sameBlock {p : Pixel} {s t : State} (active : s.fsm = .active)
    (e : exec (.pixel p.r p.g p.b p.a) s = .next t) (complete : t.waiting = none) (ok : t.fsm ≠ .error) :
    SameBlock t (pixelResult s p) := by
  cases exec_ends e with
  | faulted f fault => exact absurd rfl ok
  | completed t nf accepts ext same =>
    rw [State.resultOf_pixel active] at same
    exact same
  | failed m k u nf lt accepts fails ext => exact absurd rfl ok
  | waits m u nf lt accepts silent ext => cases complete

/-- Settles O23: prev in `pixelResult` is the pixel. -/
theorem pixelBecomesPrev : Obligations.PixelBecomesPrev := by
  unfold Obligations.PixelBecomesPrev
  intro p s t active e complete ok
  obtain ⟨-, prev, -⟩ := pixel_completed_sameBlock active e complete ok
  exact prev

/-- Settles O27: a run step writes prev into the slot of its hash. -/
theorem runStepCacheWrite : Obligations.RunStepCacheWrite := by
  unfold Obligations.RunStepCacheWrite
  intro p s t active same e complete ok
  subst same
  obtain ⟨cache, -⟩ := pixel_completed_sameBlock active e complete ok
  replace cache : t.cache = (s.writeCache (pixelHash s.prev) s.prev).cache := cache.trans (if_pos (.inl rfl))
  constructor
  · intro held
    have putBack := s.writeCache_readCache (pixelHash s.prev)
    rw [held] at putBack
    rw [cache, putBack]
  · intro black
    rw [cache, black]
    rfl

end Sys2Proof.Machine
end

section
/-! What a step depends on (spec/41_classifier.md R121): two states with the same block, the same command under way and
the same answers of the sink have steps that end in the same way. -/

namespace Sys2Proof.Machine

theorem SameBlock.faultOf_eq {s t : State} (h : SameBlock s t) (i : Instr) : t.faultOf i = s.faultOf i := by
  rw [h.exists_eq]
  cases i <;> rfl

theorem State.granted_congr {s t : State} (h : s.waiting = t.waiting) : t.granted = s.granted := by
  simp only [State.granted, h]

/-- A fault draws its free values in each state anew, so of the block only fsm and cause are compared (R37). -/
theorem State.raise_agrees (s t : State) (f : FaultInfo) :
    (s.raise f).settle.fsm = (t.raise f).settle.fsm ∧ (s.raise f).settle.cause = (t.raise f).settle.cause ∧
      (s.raise f).settle.waiting = (t.raise f).settle.waiting ∧
      ((s.raise f).settle.fsm ≠ .error → SameBlock (s.raise f).settle (t.raise f).settle) :=
  ⟨rfl, rfl, rfl, fun ok => absurd rfl ok⟩

/-- Settles O28: no step asks for more than three answers, so the second state's step takes the way the first one's
does, with the same bytes. -/
theorem bytesDependOnBlockAndSink : Obligations.BytesDependOnBlockAndSink := by
  unfold Obligations.BytesDependOnBlockAndSink
  intro i s₁ s₂ t₁ same under answers e
  have appends := same.appendsOf_eq i
  have granted := State.granted_congr under
  have atMost := s₁.appendsOf_length_le i
  have carry : ∀ {n : Nat}, n ≤ 3 → s₁.SinkAccepts n → s₂.SinkAccepts n := fun le acc k lt =>
    (answers k (by omega)).symm.trans (acc k lt)
  cases exec_ends e with
  | faulted f fault =>
    exact ⟨_, exec_of_fault ((same.faultOf_eq i).trans fault), ⟨[], by simp, by simp⟩, s₁.raise_agrees s₂ f⟩
  | completed t nf accepts ext reached =>
    obtain ⟨t₂, e₂, reached₂, ext₂⟩ := exec_of_accepts ((same.faultOf_eq i).trans nf)
      (by rw [appends, granted]; exact carry (by omega) accepts)
    rw [appends, granted] at ext₂
    have block : SameBlock t t₂ := (reached.trans (same.resultOf i)).trans reached₂.symm
    have ⟨_, _, _, _, _, _, fsm, cause⟩ := block
    exact ⟨t₂.settle, e₂, ⟨_, by simpa using ext.1, by simpa using ext₂.1⟩, fsm, cause, rfl, fun _ => block⟩
  | failed m k u nf lt accepts fails ext =>
    obtain ⟨u₂, e₂, ext₂⟩ := exec_of_fails (i := i) (s := s₂) (by rw [appends, granted]; exact lt)
      (carry (by omega) accepts) ((answers m (by omega)).symm.trans fails)
    rw [appends, granted] at ext₂
    exact ⟨_, e₂, ⟨_, by simpa using ext.1, by simpa using ext₂.1⟩, u.raise_agrees u₂ (.sinkFailure k)⟩
  | waits m u nf lt accepts silent ext =>
    have e₁ := exec_of_silent lt accepts silent
    have e₂ := exec_of_silent (i := i) (s := s₂) (by rw [appends, granted]; exact lt)
      (carry (by omega) accepts) ((answers m (by omega)).symm.trans silent)
    rw [appends, granted] at e₂
    rw [Host.Outcome.next.inj (e.symm.trans e₁)]
    have ⟨_, _, _, _, _, _, fsm, cause⟩ := same
    exact ⟨_, e₂, ⟨_, rfl, rfl⟩, fsm, cause, rfl, fun _ => same⟩

end Sys2Proof.Machine
end

section
/-! The finalizer (spec/43_finalizer.md R140, R142): what the END row does, that a step reaches DONE only through the
end marker, and that outside ACTIVE nothing but a START emits. -/

namespace Sys2Proof.Machine

/-! The END row (R140). -/

/-- The flush of a run is nothing or its RUN byte (R81, R116). -/
theorem flushAppends_eq (n : BitVec 6) :
    flushAppends n = if n = 0 then [] else [[BitVec.ofNat 8 (0xC0 ||| (n.toNat - 1))]] := by
  split
  next closed => exact closed ▸ flushAppends_closed
  next opened => exact flushAppends_of_pos (Nat.pos_of_ne_zero fun zero => opened (BitVec.eq_of_toNat_eq zero))

/-- The finalizer makes two appends where a run is open and one where none is. -/
theorem finalizerAppends_length (n : BitVec 6) : (finalizerAppends n).length = if n = 0 then 1 else 2 := by
  rw [finalizerAppends, flushAppends_eq]
  split <;> rfl

/-- The bytes of the finalizer: the RUN byte of an open run, and the marker (R81, R140). -/
theorem finalizerAppends_flatten (n : BitVec 6) :
    (finalizerAppends n).flatten =
      (if n = 0 then [] else [BitVec.ofNat 8 (0xC0 ||| (n.toNat - 1))]) ++ [0, 0, 0, 0, 0, 0, 0, 1] := by
  rw [finalizerAppends, flushAppends_eq]
  split <;> rfl

/-- Settles O36: END raises no fault of its own, so with an accepting sink it makes the finalizer's appends and reaches DONE
with no run open. -/
theorem endFinalizes : Obligations.EndFinalizes := by
  unfold Obligations.EndFinalizes
  intro s new accepts
  have first := State.granted_of_none new
  have appends : s.appendsOf .endMarker = finalizerAppends s.run := rfl
  obtain ⟨t, e, same, out, script, turns, -, -, input, statusReads, draws⟩ :=
    exec_of_accepts (s.faultOf_of_record (i := .endMarker) rfl)
      (by simpa only [appends, first, finalizerAppends_length, Nat.sub_zero] using accepts)
  simp only [appends, first, finalizerAppends_length, Nat.sub_zero, List.drop_zero, finalizerAppends_flatten,
    ← List.append_assoc] at out script turns
  rw [e]
  congr 1
  exact State.eq_of_same same ⟨out, input, new.symm, script, turns, draws, statusReads⟩

/-! Outside ACTIVE (R142, R153, R158, R171). -/

/-- Outside ACTIVE a PIXEL and a reserved word make no append. -/
theorem appendsOf_of_not_active {i : Instr} {s : State} (inactive : s.fsm ≠ .active) (command : isCommand i = true)
    (other : isStart i = false) : s.appendsOf i = [] := by
  cases i with
  | start w h => cases other
  | pixel r g b a => exact if_neg inactive
  | reserved word => rfl
  | _ => cases command

/-- So their step, new or resumed, leaves OUT as it was, however it ends. -/
theorem exec_out_of_not_active {i : Instr} {s t : State} (inactive : s.fsm ≠ .active) (command : isCommand i = true)
    (other : isStart i = false) (e : exec i s = .next t) : t.out = s.out := by
  obtain ⟨bs, pre, out⟩ := exec_out e
  rw [appendsOf_of_not_active inactive command other] at pre
  obtain rfl : bs = [] := by simpa using pre
  simpa using out

theorem isStart_eq_false_iff (i : Instr) : isStart i = false ↔ ∀ w h, i ≠ .start w h := by
  cases i <;> simp [isStart]

/-- Settles O45: of the interactions only a command appends, and outside ACTIVE none but START does. -/
theorem onlyStartEmitsOutsideActive : Obligations.OnlyStartEmitsOutsideActive := by
  unfold Obligations.OnlyStartEmitsOutsideActive
  intro s t host wait inactive noStart noWaitingStart e
  cases step_ends e with
  | runs c rest i t new next decodes e =>
    have other : isStart i = false :=
      (isStart_eq_false_iff i).2 fun w h start => noStart c rest next w h (start ▸ decodes)
    exact exec_out_of_not_active (s := s.takeInput) inactive (host.isCommand next decodes) other e
  | resumes v t under answered e =>
    obtain ⟨command, -, -⟩ := wait v under
    exact exec_out_of_not_active inactive command (noWaitingStart v under) e
  | reads v rest turn next => obtain rfl | rfl := turn <;> rfl
  | resets v rest turn next => obtain rfl | rfl := turn <;> rfl
  | idles => rfl
  | stalls => rfl

/-! Reaching DONE (R140, R142). -/

/-- The appends of a command that leads into DONE end with the marker: it is the PIXEL of the image's last pixel. -/
theorem appendsOf_of_reaches_done {i : Instr} {s : State} (command : isCommand i = true) (notDone : s.fsm ≠ .done)
    (done : (s.resultOf i).fsm = .done) : ∃ before, s.appendsOf i = before ++ [[0, 0, 0, 0, 0, 0, 0, 1]] := by
  cases i with
  | start w h => cases done
  | pixel r g b a =>
    by_cases active : s.fsm = .active
    · rw [State.resultOf_pixel active] at done
      have last : isLastPixel s = true := by
        by_contra more
        simp [pixelResult, more] at done
      rw [State.appendsOf_pixel active, pixelAppends, lastAppends, if_pos last, finalizerAppends]
      exact ⟨_, (List.append_assoc _ _ _).symm⟩
    · rw [State.resultOf, if_neg active] at done
      exact absurd done notDone
  | reserved word => exact absurd done notDone
  | _ => cases command

/-- Behind a complete step OUT ends in all bytes of the command, those accepted while it waited included (R53). -/
theorem State.WaitInv.out_of_completed {i : Instr} {s t : State} (wait : s.WaitInv)
    (own : ∀ w, s.waiting = some w → w.instr = i)
    (out : t.out = s.out ++ ((s.appendsOf i).drop s.granted).flatten) :
    ∃ before, t.out = before ++ (s.appendsOf i).flatten := by
  obtain ⟨before, accepted⟩ := wait.out_eq own
  refine ⟨before, ?_⟩
  rw [out, accepted, List.append_assoc, ← List.flatten_append, List.take_append_drop]

/-- A command, new or resumed, that reaches DONE ends OUT with the marker. -/
theorem exec_done_ends_marker {i : Instr} {s t : State} (wait : s.WaitInv) (command : isCommand i = true)
    (own : ∀ w, s.waiting = some w → w.instr = i) (notDone : s.fsm ≠ .done) (e : exec i s = .next t)
    (done : t.fsm = .done) : ∃ before, t.out = before ++ [0, 0, 0, 0, 0, 0, 0, 1] := by
  cases exec_ends e with
  | faulted f fault => cases done
  | completed t nf accepts ext same =>
    obtain ⟨-, -, -, -, -, -, fsm, -⟩ := same
    obtain ⟨appends, split⟩ := appendsOf_of_reaches_done command notDone (fsm.symm.trans done)
    obtain ⟨before, out⟩ := wait.out_of_completed (t := t) own (by simpa using ext.1)
    refine ⟨before ++ appends.flatten, ?_⟩
    simpa [split] using out
  | failed m k u nf lt accepts fails ext => cases done
  | waits m u nf lt accepts silent ext => exact absurd done notDone

/-- Settles O46: of the interactions only a command leads into DONE, and it does so behind the marker. -/
theorem doneEndsWithEndMarker : Obligations.DoneEndsWithEndMarker := by
  unfold Obligations.DoneEndsWithEndMarker
  intro s t host wait notDone e done
  cases step_ends e with
  | runs c rest i t new next decodes e =>
    exact exec_done_ends_marker (s := s.takeInput) (State.waitInv_of_none new) (host.isCommand next decodes)
      (fun w under => by simp [new] at under) notDone e done
  | resumes v t under answered e =>
    obtain ⟨command, -, -⟩ := wait v under
    exact exec_done_ends_marker wait command (fun w under' => by rw [under] at under'; cases under'; rfl) notDone e done
  | reads v rest turn next => obtain rfl | rfl := turn <;> exact absurd done notDone
  | resets v rest turn next => cases done
  | idles => exact absurd done notDone
  | stalls => exact absurd done notDone

end Sys2Proof.Machine
end

section
/-! The faults of the command interface (spec/60_exceptions.md R151, R153, R154, R158): the checks a command makes
before its first append, and the one cause its step can record. -/

namespace Sys2Proof.Machine

/-! The checks before the first append, as `State.faultOf` makes them (R154). -/

/-- A fault before the first append: nothing is appended, and the sink is not asked (R156). -/
theorem exec_enters_fault {i : Instr} {s : State} {f : FaultInfo} (fault : s.faultOf i = some f) :
    ∃ t, exec i s = .next t ∧ FaultEntered s t f.code ∧ t.out = s.out ∧ t.script = s.script ∧ t.turns = s.turns :=
  ⟨_, exec_of_fault fault, ⟨rfl, rfl, rfl, rfl, rfl, rfl, rfl⟩, rfl, rfl, rfl⟩

theorem State.faultOf_of_misused {i : Instr} {s : State} (misuse : misused i s.fsm = true) :
    ∃ kind, s.faultOf i = some (.protocolError kind) := by
  cases i with
  | start w h => exact ⟨.startWhileActive, if_pos (of_decide_eq_true misuse)⟩
  | pixel r g b a => exact ⟨.pixelNotActive, if_pos (of_decide_eq_true misuse)⟩
  | reserved word => exact ⟨.reserved, if_neg (of_decide_eq_true misuse)⟩
  | _ => cases misuse

theorem State.faultOf_start_of_invalid {w h : BitVec 32} {s : State} (inactive : s.fsm ≠ .active)
    (bad : dimensionsValid w h = false) : s.faultOf (.start w h) = some (.invalidInput w h) := by
  simp [State.faultOf, inactive, bad]

/-- The protocol check comes before the check of the dimensions. -/
theorem State.faultOf_of_startInvalid {i : Instr} {s : State} (used : ¬ misused i s.fsm = true)
    (bad : startInvalid i = true) : ∃ w h, s.faultOf i = some (.invalidInput w h) := by
  cases i with
  | start w h =>
    have inactive : s.fsm ≠ .active := fun active => used (decide_eq_true active)
    exact ⟨w, h, State.faultOf_start_of_invalid inactive (by simpa [startInvalid] using bad)⟩
  | _ => cases bad

/-- A command that passes both checks raises no fault before its first append. -/
theorem State.faultOf_of_checked {i : Instr} {s : State} (used : ¬ misused i s.fsm = true)
    (valid : ¬ startInvalid i = true) : s.faultOf i = none := by
  cases i with
  | start w h =>
    rw [State.faultOf_start_eq_none_iff]
    exact ⟨fun active => used (decide_eq_true active), by simpa [startInvalid] using valid⟩
  | pixel r g b a => exact if_neg fun misuse => used (decide_eq_true misuse)
  | reserved word => exact if_pos (by simpa [misused] using used)
  | _ => rfl

/-! The statements of the three faults and of absorption. -/

/-- Settles O16: out of range is what the dimension check rejects. -/
theorem invalidStartFaults : Obligations.InvalidStartFaults := by
  unfold Obligations.InvalidStartFaults
  intro w h s inactive outOfRange
  exact exec_enters_fault (State.faultOf_start_of_invalid inactive (decide_eq_false outOfRange))

/-- Settles O38: every misuse is a fault before the first append, and each of its kinds has the code PROTOCOL. -/
theorem misuseIsProtocolFault : Obligations.MisuseIsProtocolFault := by
  unfold Obligations.MisuseIsProtocolFault
  intro i s misuse
  obtain ⟨kind, fault⟩ := State.faultOf_of_misused misuse
  exact exec_enters_fault fault

/-- A command absorbed by a block with none under way leaves the whole state as it was (R158). -/
theorem exec_eq_self_of_absorbed {i : Instr} {s : State} (new : s.waiting = none) (error : s.fsm = .error)
    (command : isCommand i = true) (other : isStart i = false) : exec i s = .next s := by
  obtain ⟨t, e, -⟩ := exec_next i s
  rw [e, exec_absorbed error command other e, State.settle_of_none new]

/-- Settles O39: a PIXEL and a reserved word are the commands other than START. -/
theorem errorAbsorbs : Obligations.ErrorAbsorbs := by
  unfold Obligations.ErrorAbsorbs
  intro s new error
  exact ⟨fun r g b a => exec_eq_self_of_absorbed new error rfl rfl,
    fun word => exec_eq_self_of_absorbed new error rfl rfl⟩

/-! The order of the checks (R154). -/

/-- A command that is neither absorbed nor misused is outside ERROR once its appends are accepted. -/
theorem State.resultOf_fsm_ne_error {i : Instr} {s : State} (command : isCommand i = true)
    (heeded : ¬ (s.fsm = .error ∧ isStart i = false)) (used : ¬ misused i s.fsm = true) :
    (s.resultOf i).fsm ≠ .error := by
  cases i with
  | start w h => exact nofun
  | pixel r g b a =>
    have active : s.fsm = .active := by
      cases fsm : s.fsm with
      | active => rfl
      | error => exact absurd ⟨fsm, rfl⟩ heeded
      | idle => simp [misused, fsm] at used
      | done => simp [misused, fsm] at used
    rw [State.resultOf_pixel active, pixelResult]
    dsimp only
    split <;> exact nofun
  | reserved word => exact absurd ⟨by simpa [misused] using used, rfl⟩ heeded
  | _ => cases command

/-- With no fault before the appends, a complete step ends in ERROR only by SINK_FAILURE, at the first append not
accepted (R52, R152). -/
theorem exec_error_of_checked {i : Instr} {s t : State} (nf : s.faultOf i = none)
    (ok : (s.resultOf i).fsm ≠ .error) (e : exec i s = .next t) (complete : t.waiting = none)
    (error : t.fsm = .error) :
    t.cause = .sinkFailure ∧ ∃ k < 3, s.SinkAccepts k ∧ ∃ n, s.answerAt k = some (.fail n) := by
  cases exec_ends e with
  | faulted f fault => rw [nf] at fault; cases fault
  | completed t nf accepts ext same =>
    obtain ⟨-, -, -, -, -, -, fsm, -⟩ := same
    exact absurd (fsm.symm.trans error) ok
  | failed m k u nf lt accepts fails ext =>
    have atMost := s.appendsOf_length_le i
    exact ⟨rfl, m, by omega, accepts, k, fails⟩
  | waits m u nf lt accepts silent ext => cases complete

/-- Settles O40: check by check, the first that catches the command; past all of them only the sink is left. -/
theorem checksInOrder : Obligations.ChecksInOrder := by
  unfold Obligations.ChecksInOrder
  intro i s t new command e complete
  split
  next absorbed =>
    obtain ⟨error, other⟩ := absorbed
    exact (exec_absorbed error command other e).trans (State.settle_of_none new)
  next heeded =>
    split
    next misuse =>
      obtain ⟨kind, fault⟩ := State.faultOf_of_misused misuse
      exact fault_transition fault e
    next used =>
      split
      next bad =>
        obtain ⟨w, h, fault⟩ := State.faultOf_of_startInvalid used bad
        exact fault_transition fault e
      next valid =>
        exact exec_error_of_checked (State.faultOf_of_checked used valid)
          (State.resultOf_fsm_ne_error command heeded used) e complete

end Sys2Proof.Machine
end
